-- ==== Sys2Proof/Word.lean ====
section
/-! DEFINITION. The two word types of the machine: a memory cell and the program counter (spec 00_scope.md R4). -/

namespace Sys2Proof

/-- A memory cell, the accumulator, the stack pointer, an operand byte: 8 bits, unsigned (R4, R5). -/
abbrev Byte := BitVec 8

/-- The program counter: 9 bits, so that it can hold 256, one past the last address (10_state.md R12; log 2). -/
abbrev PcWord := BitVec 9

end Sys2Proof
end

