-- ==== Sys2Proof/Config.lean ====
section
/-! DEFINITION. The parameters of 00_scope.md R4 that the machine reads. -/

namespace Sys2Proof

/-- `MEM_SIZE`: the number of memory cells (R4). -/
def Config.memSize : Nat := 256

/-- `PC_RESET`: the program counter after reset (R4, decision D2; log 3). -/
def Config.pcReset : PcWord := 0

/-- `LOAD_ORIGIN`: the address of the first byte of a program image (R4, decision D2; log 3). -/
def Config.loadOrigin : Nat := 0

/-- `SP_RESET`: the stack pointer after reset, the last valid address (R4). -/
def Config.spReset : Byte := 255

/-- `ACC_RESET`, which the spec leaves open and recommends to be 0 (R4, D3).
DESIGN CHOICE, unsafe (log 1): `State.reset` takes the recommended value; statements quantify over it. -/
def Config.accReset : Byte := 0

/-- `Z_RESET`, which the spec leaves open and recommends to be 0 (R4, D4).
DESIGN CHOICE, unsafe (log 1): `State.reset` takes the recommended value; statements quantify over it. -/
def Config.zReset : Bool := false

/-- `STACK_PRE_DECREMENT`: whether a push decrements before it writes (R4, decision D5; log 4). -/
def Config.stackPreDecrement : Bool := false

/-- What a memory cell nothing has written holds: memory is zero-initialised (10_state.md R20, 70_reset_and_hazards.md
R152; log 9). -/
def Config.unwrittenByte : Byte := 0

end Sys2Proof
end

