-- ==== Sys2Proof/Machine/State.lean ====
section
/-! DEFINITION. The state tuple of 10_state.md R10 as plain data, the reasons a step stops, and the state after reset. -/

namespace Sys2Proof.Machine

/-- The four fatal faults of the engine (60_exceptions.md R120). They are effects of a step, recorded in the state. -/
inductive FaultKind where
  /-- A fetch with the program counter above 255 (R122). -/
  | outOfBoundsFetch
  /-- A push with the stack pointer at 0 (R123). -/
  | stackOverflow
  /-- A pop with the stack pointer at 255 (R124). -/
  | stackUnderflow
  /-- An opcode byte that is not 1 to 14 (R125). -/
  | unknownOpcode
  deriving DecidableEq, Repr

/-- The record `(kind, pc, info)` a fault leaves (10_state.md R16; log 6). -/
structure FaultRecord where
  kind : FaultKind
  /-- The address of the opcode byte of the step that faulted. -/
  pc : PcWord
  /-- The opcode byte for UnknownOpcode, 0 for the other kinds. -/
  info : Byte
  deriving DecidableEq, Repr

/-- The one kind of warning (60_exceptions.md R126). -/
inductive WarningKind where
  | outOfRangeOperand
  deriving DecidableEq, Repr

/-- The record `(OutOfRangeOperand, pc, addr)` of a warning (10_state.md R17). -/
structure Warning where
  kind : WarningKind
  pc : PcWord
  addr : Byte
  deriving DecidableEq, Repr

/-- The memory image: (address, byte) pairs with addresses rising, none holding what an unlisted address reads as
(10_state.md R20; log 9). -/
abbrev Memory := List Host.Cell

/-- The complete state of the machine (10_state.md R10). -/
structure State where
  /-- `ACC`, the accumulator (R11). -/
  acc : Byte
  /-- `PC`, the program counter (R12). -/
  pc : PcWord
  /-- `SP`, the stack pointer (R13). -/
  sp : Byte
  /-- `Z`, the zero flag (R14). -/
  z : Bool
  /-- `HALTED` (R15). -/
  halted : Bool
  /-- `FAULT` (R16). -/
  fault : Option FaultRecord
  /-- `WARN` (R17). -/
  warn : List Warning
  /-- `MEM` (R20). -/
  mem : Memory
  /-- `ICOUNT`, instructions completed (R18). -/
  icount : Nat
  /-- `CYCLES`, cycle ticks (R18). -/
  cycles : Nat
  /-- `MACC`, memory accesses (R18). -/
  macc : Nat
  /-- `JT`, jumps taken (R18). -/
  jt : Nat
  /-- `JNT`, jumps not taken (R18). -/
  jnt : Nat
  /-- `MAXDEPTH`, the largest `255 - SP` (R18). -/
  maxdepth : Nat
  deriving DecidableEq, Repr

/-- Why a step does not answer a next state. -/
inductive Fault where
  /-- Raised by `step` alone: `HALTED = 1`, and a halted engine has no step (40_cycle.md R70). Safe (log 11): the model
  stops where the hardware stays as it is. -/
  | halted
  deriving DecidableEq, Repr

/-- Why an instruction has no meaning here. -/
inductive Refusal where
  /-- Raised by an arm of `exec` whose instruction has no meaning yet; no arm raises it. Safe. -/
  | notModelled (mnemonic : String)
  deriving DecidableEq, Repr

/-- The state an engine reset leaves over a memory image (10_state.md R23, 70_reset_and_hazards.md R150), for every value
of the two parameters the spec leaves open. -/
def State.resetWith (accReset : Byte) (zReset : Bool) (mem : Memory) : State where
  acc := accReset
  pc := Config.pcReset
  sp := Config.spReset
  z := zReset
  halted := false
  fault := none
  warn := []
  mem := mem
  icount := 0
  cycles := 0
  macc := 0
  jt := 0
  jnt := 0
  maxdepth := 0

/-- The machine right after reset, memory zero-initialised and no image loaded (R23; log 1, log 13). -/
def State.reset : State := State.resetWith Config.accReset Config.zReset []

end Sys2Proof.Machine
end

