-- ==== Sys2Proof/Machine/Flags.lean ====
section
/-! DEFINITION. The zero flag, the only flag (10_state.md R14). -/

namespace Sys2Proof.Machine

/-- The flag computed from an 8-bit result, after the wrap (40_cycle.md R77, 42_arithmetic.md R94). -/
def zeroFlag (result : Byte) : Bool := decide (result = 0)

/-- `ZUpdate()` (R77). -/
def State.zUpdate (s : State) : State := { s with z := zeroFlag s.acc }

/-- Write the accumulator and update the flag from it, as every write of `ACC` does (10_state.md R11, R14). -/
def State.writeAcc (v : Byte) (s : State) : State := State.zUpdate { s with acc := v }

end Sys2Proof.Machine
end

