-- ==== Sys2Proof/Machine/Ops.lean ====
section
/-! DEFINITION. The named operations over memory and registers: memory primitives, the advance of a fetch, the stack,
fault entry, completion, engine reset. -/

namespace Sys2Proof.Machine

/-! ### The memory image (20_memory.md R30, R31) -/

/-- Addresses rise strictly from `lo`, lie inside the memory, and no entry holds what an unlisted address reads as. -/
def Memory.wfFrom : Nat → Memory → Bool
  | _, [] => true
  | lo, (a, v) :: m =>
    decide (lo ≤ a) && decide (a < Config.memSize) && decide (v ≠ Config.unwrittenByte) && Memory.wfFrom (a + 1) m

/-- The canonical form of a memory image: equal contents are equal lists. -/
def Memory.wf (m : Memory) : Bool := Memory.wfFrom 0 m

/-- The byte held at address `n` (R31). -/
def Memory.lookup : Memory → Nat → Byte
  | [], _ => Config.unwrittenByte
  | (a, v) :: m, n => if n = a then v else Memory.lookup m n

/-- Forget address `n`: it then reads as unwritten. -/
def Memory.remove : Memory → Nat → Memory
  | [], _ => []
  | (a, v) :: m, n => if n = a then Memory.remove m n else (a, v) :: Memory.remove m n

/-- Put an entry before the first greater address. -/
def Memory.insert : Memory → Nat → Byte → Memory
  | [], n, v => [(n, v)]
  | (a, w) :: m, n, v => if n < a then (n, v) :: (a, w) :: m else (a, w) :: Memory.insert m n v

/-- Set the byte at address `n`, keeping the canonical form. -/
def Memory.store (m : Memory) (n : Nat) (v : Byte) : Memory :=
  if v = Config.unwrittenByte then Memory.remove m n else Memory.insert (Memory.remove m n) n v

/-- `MEM[addr]` (R31): every 8-bit address is backed by a cell (R30). -/
def Memory.read (m : Memory) (addr : Byte) : Byte := Memory.lookup m addr.toNat

/-- `MEM[addr] <- v` (R31). -/
def Memory.write (m : Memory) (addr : Byte) (v : Byte) : Memory := Memory.store m addr.toNat v

/-- `MemRead(addr, 1)`: the byte, and the access counted (R31). -/
def State.memRead (addr : Byte) (s : State) : Byte × State := (s.mem.read addr, { s with macc := s.macc + 1 })

/-- `MemWrite(addr, 1, v)`: the cell set, and the access counted (R31). -/
def State.memWrite (addr v : Byte) (s : State) : State :=
  { s with mem := s.mem.write addr v, macc := s.macc + 1 }

/-! ### The program counter -/

/-- `v[7:0]` of a program counter: the memory address it names, and the byte CALL pushes (40_cycle.md R71,
44_stack_call.md R112; log 7). -/
def pcByte (pc : PcWord) : Byte := pc.setWidth 8

/-- `zext_9(k)`: a byte as a program counter (00_scope.md R5). -/
def zext9 (k : Byte) : PcWord := k.setWidth 9

/-- The memory and counter effect of one successful fetch: a counted read and an advance by one, without wrap from 255
(40_cycle.md R71, R73). -/
def State.fetchByte (s : State) : State := { s with pc := s.pc + 1, macc := s.macc + 1 }

/-- The state after the fetch of a one-byte instruction: `PC = pc0 + 1` (R71). -/
def State.fetchOp (s : State) : State := s.fetchByte

/-- The state after both fetches of a two-byte instruction: `PC = pc0 + 2` (R71, R73). -/
def State.fetchOpk (s : State) : State := s.fetchByte.fetchByte

/-! ### Taking a fault, and completing -/

/-- `raise K(info)`: the whole of fault entry (60_exceptions.md R121). `pc0` is the address of the opcode byte of the
step; every other field keeps the value the fetches left. -/
def State.raise (kind : FaultKind) (pc0 : PcWord) (info : Byte) (s : State) : State :=
  { s with fault := some ⟨kind, pc0, info⟩, halted := true }

/-- Completion: one instruction and one cycle counted (40_cycle.md R74). -/
def State.complete (s : State) : State := { s with icount := s.icount + 1, cycles := s.cycles + 1 }

/-- End a step whose fetches left `fetched` and whose effect is `effect`: complete it, or take the fault it names with
no part of the effect done (R121: faults are precise). -/
def retire (pc0 : PcWord) (fetched : State) (effect : Except FaultKind State) :
    Host.Outcome State Fault Refusal :=
  match effect with
  | .ok s => .next s.complete
  | .error kind => .next (fetched.raise kind pc0 0)

/-! ### The stack (44_stack_call.md R114) -/

/-- The cell a push writes when the stack pointer is `sp`: `sp` itself, or the cell below it in the order that
decrements first (40_cycle.md R78; log 4). -/
def pushCell (preDecrement : Bool) (sp : Byte) : Byte := if preDecrement then sp - 1 else sp

/-- The cell a pop reads when the stack pointer is `sp` (R79; log 4). -/
def popCell (preDecrement : Bool) (sp : Byte) : Byte := if preDecrement then sp else sp + 1

/-- `Push(v)` in either order of the write and the decrement (R78). -/
def State.pushWith (preDecrement : Bool) (v : Byte) (s : State) : Except FaultKind State :=
  if s.sp = 0 then .error .stackOverflow
  else
    let s1 := s.memWrite (pushCell preDecrement s.sp) v
    .ok { s1 with sp := s.sp - 1, maxdepth := max s.maxdepth (255 - (s.sp - 1).toNat) }

/-- `Pop()` in either order of the read and the increment (R79). -/
def State.popWith (preDecrement : Bool) (s : State) : Except FaultKind (Byte × State) :=
  if s.sp = 255 then .error .stackUnderflow
  else
    let r := s.memRead (popCell preDecrement s.sp)
    .ok (r.1, { r.2 with sp := s.sp + 1 })

/-- `Push(v)` of this hardware (R78). -/
def State.push (v : Byte) (s : State) : Except FaultKind State := s.pushWith Config.stackPreDecrement v

/-- `Pop()` of this hardware (R79). -/
def State.pop (s : State) : Except FaultKind (Byte × State) := s.popWith Config.stackPreDecrement

/-! ### Engine reset -/

/-- Reset, an input of the host that may come in any state: every piece of engine state at its reset value, memory left
alone (70_reset_and_hazards.md R150; log 15). It is the only return from a fault (60_exceptions.md R131). -/
def State.applyReset (accReset : Byte) (zReset : Bool) (s : State) : State :=
  State.resetWith accReset zReset s.mem

end Sys2Proof.Machine
end

