-- ==== Sys2Proof/Machine/Operands.lean ====
section
/-! DEFINITION. The ways an operand is used (41_load_store.md R88) with the out-of-range policy of 60_exceptions.md R126
over the memory size, and the three operations of the ALU (42_arithmetic.md R93).

With 256 cells every operand byte is in range (R126), so the degraded branches never run here; they are written for every
memory size because the source asks for the policy to be kept (log 10). -/

namespace Sys2Proof.Machine

/-! ### The arithmetic -/

/-- `add(a, b) = (a + b) mod 256` (R93). -/
def aluAdd (a b : Byte) : Byte := BitVec.ofNat 8 (a.toNat + b.toNat)

/-- `sub(a, b) = (a - b) mod 256`, with a non-negative remainder (R93). -/
def aluSub (a b : Byte) : Byte := BitVec.ofInt 8 ((a.toNat : Int) - (b.toNat : Int))

/-- `mul(a, b) = (a * b) mod 256` (R93). -/
def aluMul (a b : Byte) : Byte := BitVec.ofNat 8 (a.toNat * b.toNat)

/-! ### Operands -/

/-- The operand names a cell of a memory of `memSize` cells (R126). -/
def operandInRange (memSize : Nat) (k : Byte) : Bool := decide (k.toNat < memSize)

/-- Record the warning OutOfRangeOperand (R126). -/
def State.warnOperand (pc0 : PcWord) (k : Byte) (s : State) : State :=
  { s with warn := s.warn ++ [⟨.outOfRangeOperand, pc0, k⟩] }

/-- The byte a direct data operand supplies: the cell `k` read, or 0 with a warning and no access (R88, R126). -/
def State.loadOperand (memSize : Nat) (pc0 : PcWord) (k : Byte) (s : State) : Byte × State :=
  if operandInRange memSize k then s.memRead k else (0, s.warnOperand pc0 k)

/-- Write a byte to the direct operand: the cell `k` written, or nothing with a warning (R88, R126). -/
def State.storeOperand (memSize : Nat) (pc0 : PcWord) (k v : Byte) (s : State) : State :=
  if operandInRange memSize k then s.memWrite k v else s.warnOperand pc0 k

/-- A jump taken: `PC <- zext_9(k)`, counted in `JT` (43_control.md R101). -/
def State.takeJump (k : Byte) (s : State) : State := { s with pc := zext9 k, jt := s.jt + 1 }

/-- A jump not taken: the program counter stays past the instruction, counted in `JNT` (R102). -/
def State.skipJump (s : State) : State := { s with jnt := s.jnt + 1 }

/-- Jump to the direct code operand, or warn and go on (R101, R126). -/
def State.jumpOperand (memSize : Nat) (pc0 : PcWord) (k : Byte) (s : State) : State :=
  if operandInRange memSize k then s.takeJump k else (s.warnOperand pc0 k).skipJump

/-- Push the return address and jump to the direct code operand; out of range, push nothing, warn and go on
(44_stack_call.md R112, R126). -/
def State.callOperand (memSize : Nat) (pc0 : PcWord) (k : Byte) (s : State) : Except FaultKind State :=
  if operandInRange memSize k then (s.push (pcByte s.pc)).map (State.takeJump k)
  else .ok (s.warnOperand pc0 k).skipJump

end Sys2Proof.Machine
end

