-- ==== Sys2Proof/Machine/Arithmetic.lean ====
section
/-! DEFINITION. ADD, SUB, MUL (42_arithmetic.md): the accumulator is the left operand, the cell `k` the right one (R93). -/

namespace Sys2Proof.Machine

/-- ADD addr (R90). -/
def execAdd (k : Byte) (s : State) : Host.Outcome State Fault Refusal :=
  let f := s.fetchOpk
  let m := f.loadOperand Config.memSize s.pc k
  retire s.pc f (.ok (m.2.writeAcc (aluAdd m.2.acc m.1)))

/-- SUB addr (R91). -/
def execSub (k : Byte) (s : State) : Host.Outcome State Fault Refusal :=
  let f := s.fetchOpk
  let m := f.loadOperand Config.memSize s.pc k
  retire s.pc f (.ok (m.2.writeAcc (aluSub m.2.acc m.1)))

/-- MUL addr (R92). -/
def execMul (k : Byte) (s : State) : Host.Outcome State Fault Refusal :=
  let f := s.fetchOpk
  let m := f.loadOperand Config.memSize s.pc k
  retire s.pc f (.ok (m.2.writeAcc (aluMul m.2.acc m.1)))

end Sys2Proof.Machine
end

