-- ==== Sys2Proof/Machine/Control.lean ====
section
/-! DEFINITION. NOP, JMP, JMPZ, HALT (43_control.md). -/

namespace Sys2Proof.Machine

/-- NOP (R100). -/
def execNop (s : State) : Host.Outcome State Fault Refusal :=
  let f := s.fetchOp
  retire s.pc f (.ok f)

/-- JMP addr (R101). -/
def execJmp (k : Byte) (s : State) : Host.Outcome State Fault Refusal :=
  let f := s.fetchOpk
  retire s.pc f (.ok (f.jumpOperand Config.memSize s.pc k))

/-- JMPZ addr (R102): it reads the flag, not the accumulator, and changes neither. -/
def execJmpz (k : Byte) (s : State) : Host.Outcome State Fault Refusal :=
  let f := s.fetchOpk
  retire s.pc f (.ok (if f.z then f.jumpOperand Config.memSize s.pc k else f.skipJump))

/-- HALT (R103): the clean end of a run; the step is counted. -/
def execHalt (s : State) : Host.Outcome State Fault Refusal :=
  let f := s.fetchOp
  retire s.pc f (.ok { f with halted := true })

end Sys2Proof.Machine
end

