-- ==== Sys2Proof/Machine/DataMove.lean ====
section
/-! DEFINITION. STORE, LOADI, LOADM (41_load_store.md). A meaning takes the state at the start of the step, whose `PC` is
`pc0`, the address of the opcode byte; the fetches of its own bytes come first (40_cycle.md R71, R73; log 12). -/

namespace Sys2Proof.Machine

/-- STORE addr (R85). -/
def execStore (k : Byte) (s : State) : Host.Outcome State Fault Refusal :=
  let f := s.fetchOpk
  retire s.pc f (.ok (f.storeOperand Config.memSize s.pc k f.acc))

/-- LOADI imm (R86). -/
def execLoadi (k : Byte) (s : State) : Host.Outcome State Fault Refusal :=
  let f := s.fetchOpk
  retire s.pc f (.ok (f.writeAcc k))

/-- LOADM addr (R87). -/
def execLoadm (k : Byte) (s : State) : Host.Outcome State Fault Refusal :=
  let f := s.fetchOpk
  let m := f.loadOperand Config.memSize s.pc k
  retire s.pc f (.ok (m.2.writeAcc m.1))

end Sys2Proof.Machine
end

