-- ==== Sys2Proof/Machine/Stack.lean ====
section
/-! DEFINITION. PUSH, POP, CALL, RET (44_stack_call.md). -/

namespace Sys2Proof.Machine

/-- PUSH (R110). -/
def execPush (s : State) : Host.Outcome State Fault Refusal :=
  let f := s.fetchOp
  retire s.pc f (f.push f.acc)

/-- POP (R111). -/
def execPop (s : State) : Host.Outcome State Fault Refusal :=
  let f := s.fetchOp
  retire s.pc f (f.pop.map fun r => r.2.writeAcc r.1)

/-- CALL addr (R112): the pushed `PC` is the one the operand fetch has advanced. -/
def execCall (k : Byte) (s : State) : Host.Outcome State Fault Refusal :=
  let f := s.fetchOpk
  retire s.pc f (f.callOperand Config.memSize s.pc k)

/-- RET (R113): it does not update the flag and counts as no jump. -/
def execRet (s : State) : Host.Outcome State Fault Refusal :=
  let f := s.fetchOp
  retire s.pc f (f.pop.map fun r => { r.2 with pc := zext9 r.1 })

end Sys2Proof.Machine
end

