-- ==== Sys2Proof/Syntax.lean ====
section
/-! DEFINITION. The fourteen instructions (spec 30_encoding.md R55), one constructor per row of the opcode table. -/

namespace Sys2Proof

/-- An instruction with its operand byte `k`, used as it stands (R54): an immediate for LOADI, a cell number for STORE,
ADD, SUB, LOADM and MUL, a code address for JMP, JMPZ and CALL. -/
inductive Instr where
  | nop
  | store (k : Byte)
  | add (k : Byte)
  | sub (k : Byte)
  | loadi (k : Byte)
  | loadm (k : Byte)
  | jmp (k : Byte)
  | halt
  | push
  | pop
  | call (k : Byte)
  | ret
  | jmpz (k : Byte)
  | mul (k : Byte)
  deriving DecidableEq, Repr

end Sys2Proof
end

