-- ==== Sys2Proof/Machine/Dispatch.lean ====
section
/-! DEFINITION. The meaning of each instruction (40_cycle.md R72): one arm per row of the opcode table. -/

namespace Sys2Proof.Machine

def exec (i : Instr) (s : State) : Host.Outcome State Fault Refusal :=
  match i with
  | .nop => Sys2Proof.Machine.execNop s
  | .store k => Sys2Proof.Machine.execStore k s
  | .add k => Sys2Proof.Machine.execAdd k s
  | .sub k => Sys2Proof.Machine.execSub k s
  | .loadi k => Sys2Proof.Machine.execLoadi k s
  | .loadm k => Sys2Proof.Machine.execLoadm k s
  | .jmp k => Sys2Proof.Machine.execJmp k s
  | .halt => Sys2Proof.Machine.execHalt s
  | .push => Sys2Proof.Machine.execPush s
  | .pop => Sys2Proof.Machine.execPop s
  | .call k => Sys2Proof.Machine.execCall k s
  | .ret => Sys2Proof.Machine.execRet s
  | .jmpz k => Sys2Proof.Machine.execJmpz k s
  | .mul k => Sys2Proof.Machine.execMul k s

end Sys2Proof.Machine
end

