-- ==== Sys2Proof/WellFormed.lean ====
section
/-! DEFINITION. What may be encoded and what may be loaded.

An operand is one byte by its type, and every one of its 256 values is legal for every two-byte instruction
(30_encoding.md R54, R57), so no term of `Instr` is ill formed. The check that can fail is the one on a program image. -/

namespace Sys2Proof

/-- An operand byte lies in 0 to 255 (R54: "All 256 values of `k` are legal for every OPK instruction"). -/
def operandWellFormed (k : Byte) : Bool := decide (k.toNat < 256)

/-- Every instruction whose operand, if it has one, is a byte is well formed (R54, R57). -/
def Instr.wellFormed : Instr → Bool
  | .nop | .halt | .push | .pop | .ret => true
  | .store k | .add k | .sub k | .loadi k | .loadm k | .jmp k | .call k | .jmpz k | .mul k => operandWellFormed k

/-- A program image fits the memory from the load origin upward (70_reset_and_hazards.md R152; an image longer than
256 bytes has no defined loading, U12). -/
def imageWellFormed (image : List Byte) : Bool := decide (Config.loadOrigin + image.length ≤ Config.memSize)

end Sys2Proof
end

