-- ==== Sys2Proof/Decode.lean ====
section
/-! DEFINITION. The opcode map and the two formats (30_encoding.md R50 to R58), a decoder over bytes that rejects by
name, and the encoder written from the same map. -/

namespace Sys2Proof

/-- The two instruction formats (R51, R52). -/
inductive Format where
  /-- One byte: the opcode. -/
  | op
  /-- Two bytes: the opcode, then the operand `k` at the next address. -/
  | opk
  deriving DecidableEq, Repr

/-- What an opcode byte can select (R55). -/
inductive Opcode where
  | nop | store | add | sub | loadi | loadm | jmp | halt | push | pop | call | ret | jmpz | mul
  deriving DecidableEq, Repr

/-- The canonical numbering (R55, column "code"). -/
def Opcode.code : Opcode → Byte
  | .nop => 1
  | .store => 2
  | .add => 3
  | .sub => 4
  | .loadi => 5
  | .loadm => 6
  | .jmp => 7
  | .halt => 8
  | .push => 9
  | .pop => 10
  | .call => 11
  | .ret => 12
  | .jmpz => 13
  | .mul => 14

/-- The format of each opcode (R51, R52, R53). -/
def Opcode.format : Opcode → Format
  | .nop | .halt | .push | .pop | .ret => .op
  | .store | .add | .sub | .loadi | .loadm | .jmp | .call | .jmpz | .mul => .opk

/-- The rows of the opcode map, in the order of R55. -/
def opcodeMap : List Opcode :=
  [.nop, .store, .add, .sub, .loadi, .loadm, .jmp, .halt, .push, .pop, .call, .ret, .jmpz, .mul]

/-- Dispatch on the whole opcode byte: 0 and 15 to 255 select nothing (R56). -/
def Opcode.ofByte (b : Byte) : Option Opcode := opcodeMap.find? (fun o => o.code == b)

/-- The bytes an instruction of a format occupies (R50, R61). -/
def Format.size : Format → Nat
  | .op => 1
  | .opk => 2

/-- The instruction an opcode and an operand byte make; a one-byte opcode takes no operand. -/
def Opcode.withOperand (o : Opcode) (k : Byte) : Instr :=
  match o with
  | .nop => .nop
  | .store => .store k
  | .add => .add k
  | .sub => .sub k
  | .loadi => .loadi k
  | .loadm => .loadm k
  | .jmp => .jmp k
  | .halt => .halt
  | .push => .push
  | .pop => .pop
  | .call => .call k
  | .ret => .ret
  | .jmpz => .jmpz k
  | .mul => .mul k

/-- Why bytes are no instruction. -/
inductive DecodeError where
  /-- There is no byte to take as an opcode. -/
  | noOpcode
  /-- The opcode byte is not one of 1 to 14 (R56). -/
  | unknownOpcode (op : Byte)
  /-- The opcode byte asks for an operand byte and there is none (R52; 40_cycle.md R73). -/
  | missingOperand (op : Byte)
  deriving DecidableEq, Repr

/-- Read one byte, look it up, and read one more if the format is OPK (R53). What follows is handed back. -/
def decode (bytes : List Byte) : Except DecodeError (Instr × List Byte) :=
  match bytes with
  | [] => .error .noOpcode
  | op :: rest =>
    match Opcode.ofByte op with
    | none => .error (.unknownOpcode op)
    | some o =>
      match o.format, rest with
      | .op, _ => .ok (o.withOperand 0, rest)
      | .opk, [] => .error (.missingOperand op)
      | .opk, k :: rest' => .ok (o.withOperand k, rest')

/-- The opcode of an instruction (R55). -/
def Instr.opcode : Instr → Opcode
  | .nop => .nop
  | .store _ => .store
  | .add _ => .add
  | .sub _ => .sub
  | .loadi _ => .loadi
  | .loadm _ => .loadm
  | .jmp _ => .jmp
  | .halt => .halt
  | .push => .push
  | .pop => .pop
  | .call _ => .call
  | .ret => .ret
  | .jmpz _ => .jmpz
  | .mul _ => .mul

/-- The operand byte, for the instructions that have one. -/
def Instr.operand? : Instr → Option Byte
  | .nop | .halt | .push | .pop | .ret => none
  | .store k | .add k | .sub k | .loadi k | .loadm k | .jmp k | .call k | .jmpz k | .mul k => some k

/-- The bytes of an instruction, the opcode at the lower address (R51, R52; 20_memory.md R34). -/
def encode (i : Instr) : List Byte := i.opcode.code :: i.operand?.toList

/-- The length of an instruction in bytes (R53). -/
def Instr.size (i : Instr) : Nat := i.opcode.format.size

/-- Byte `n` of a word that numbers its bits from the least significant bit of its first byte. -/
def wordByte (n w : Nat) : Byte := BitVec.ofNat 8 (w >>> (8 * n))

/-- The longest instruction's bytes of a table word of `nbits` bits, zero above them. -/
def tableBytes (nbits w : Nat) : List Byte := [wordByte 0 (w % 2 ^ nbits), wordByte 1 (w % 2 ^ nbits)]

/-- The instruction the decoder reads from a table word. -/
def decodeTableWord (nbits w : Nat) : Option Instr :=
  match decode (tableBytes nbits w) with
  | .ok (i, _) => some i
  | .error _ => none

end Sys2Proof
end

