-- ==== Sys2Proof/Machine/Fetch.lean ====
section
/-! DEFINITION. Fetching an instruction: the bytes at the program counter, the instruction they are, or the fault the
fetch takes (40_cycle.md R71 to R73). -/

namespace Sys2Proof.Machine

/-- The bytes a fetch can read: from the program counter up to the top of memory, at most the longest instruction. There
is none at 256 and above, and one at 255 (R71, R73). -/
def window (s : State) : List Byte :=
  if s.pc.toNat ≤ 254 then [s.mem.read (pcByte s.pc), s.mem.read (pcByte (s.pc + 1))]
  else if s.pc.toNat = 255 then [s.mem.read (pcByte s.pc)]
  else []

/-- The instruction at the program counter, or the state of the fault that the fetch takes, in the order of the checks of
60_exceptions.md R129: the range of `PC` (nothing read), the opcode byte (one byte read), the range of the operand's
address (one byte read). -/
def fetch (s : State) : Except State Instr :=
  match decode (window s) with
  | .ok (i, _) => .ok i
  | .error .noOpcode => .error (s.raise .outOfBoundsFetch s.pc 0)
  | .error (.unknownOpcode op) => .error (s.fetchByte.raise .unknownOpcode s.pc op)
  | .error (.missingOperand _) => .error (s.fetchByte.raise .outOfBoundsFetch s.pc 0)

/-- Bytes laid down from a program counter value upward, the first at the lower address; a byte past the last cell has no
cell to go to and is dropped (log 14). -/
def placeBytes (pc : PcWord) (bytes : List Byte) (m : Memory) : Memory :=
  match bytes with
  | [] => m
  | b :: rest => placeBytes (pc + 1) rest (if pc.toNat < Config.memSize then m.write (pcByte pc) b else m)

end Sys2Proof.Machine
end

