-- ==== Sys2Proof/Machine/Step.lean ====
section
/-! DEFINITION. One step of the engine (40_cycle.md R70). -/

namespace Sys2Proof.Machine

/-- One step: none when `HALTED = 1`; else the fetch, and then the instruction's meaning or the fault of the fetch. -/
def step (s : State) : Host.Outcome State Fault Refusal :=
  if s.halted then .fault .halted
  else
    match fetch s with
    | .ok i => exec i s
    | .error s' => .next s'

/-- The state with a table word stored where the next fetch reads: the host's load of a program (log 13, log 14). -/
def State.withFetchWord (s : State) (nbits w : Nat) : State := { s with mem := placeBytes s.pc (tableBytes nbits w) s.mem }

end Sys2Proof.Machine
end

