-- ==== Sys2Proof/Machine/Accesses.lean ====
section
/-! DEFINITION. The complete list of memory accesses of a step, in order (20_memory.md R33), written from that table and
used by statements only: `step` does not call it. -/

namespace Sys2Proof.Machine

/-- One access to a memory cell. -/
inductive Access where
  | read (addr : Byte)
  | write (addr : Byte)
  deriving DecidableEq, Repr

/-- The accesses of an instruction's own effect (R33). A stack check that fires leaves none. -/
def dataAccesses (i : Instr) (s : State) : List Access :=
  match i with
  | .nop | .halt | .loadi _ | .jmp _ | .jmpz _ => []
  | .store k => [.write k]
  | .add k | .sub k | .mul k | .loadm k => [.read k]
  | .push | .call _ => if s.sp = 0 then [] else [.write (pushCell Config.stackPreDecrement s.sp)]
  | .pop | .ret => if s.sp = 255 then [] else [.read (popCell Config.stackPreDecrement s.sp)]

/-- The reads that fetch an instruction (R33, first columns). -/
def fetchAccesses (i : Instr) (s : State) : List Access :=
  match i.opcode.format with
  | .op => [.read (pcByte s.pc)]
  | .opk => [.read (pcByte s.pc), .read (pcByte (s.pc + 1))]

/-- The accesses of the step a running state takes (R33). -/
def accesses (s : State) : List Access :=
  match decode (window s) with
  | .ok (i, _) => fetchAccesses i s ++ dataAccesses i s
  | .error .noOpcode => []
  | .error (.unknownOpcode _) => [.read (pcByte s.pc)]
  | .error (.missingOperand _) => [.read (pcByte s.pc)]

/-- The cell an instruction stores to: the operand cell of STORE, the stack cell of PUSH and CALL, none for the others and
for a push that faults. -/
def storedCell (i : Instr) (s : State) : Option Byte :=
  match i with
  | .store k => some k
  | .push | .call _ => if s.sp = 0 then none else some (pushCell Config.stackPreDecrement s.sp)
  | .nop | .add _ | .sub _ | .loadi _ | .loadm _ | .jmp _ | .halt | .pop | .ret | .jmpz _ | .mul _ => none

/-- The byte an instruction that stores writes: the accumulator, or for CALL the low byte of the address after it. -/
def storedByte (i : Instr) (s : State) : Byte :=
  match i with
  | .call _ => pcByte (s.pc + 2)
  | .nop | .store _ | .add _ | .sub _ | .loadi _ | .loadm _ | .jmp _ | .halt | .push | .pop | .ret | .jmpz _ | .mul _ =>
    s.acc

/-- The stack check of the instruction fires: a push with `SP = 0` or a pop with `SP = 255` (60_exceptions.md R123,
R124). -/
def stackFaults (i : Instr) (s : State) : Bool :=
  match i with
  | .push | .call _ => decide (s.sp = 0)
  | .pop | .ret => decide (s.sp = 255)
  | .nop | .store _ | .add _ | .sub _ | .loadi _ | .loadm _ | .jmp _ | .halt | .jmpz _ | .mul _ => false

end Sys2Proof.Machine
end

