-- ==== Sys2Proof/Machine/MemoryFile.lean ====
section
/-! DEFINITION. Toolchain, not hardware: numbers in text, the encoded memory file and its loader (30_encoding.md R66). No
step depends on this file. Text is a list of characters. -/

namespace Sys2Proof.Machine

/-- The value of a decimal or hexadecimal digit. DESIGN CHOICE (log 17 for the assembler, log 18 for the loader; safe): a
hexadecimal digit may be of either case. -/
def digitValue (c : Char) : Option Nat :=
  if '0' ≤ c ∧ c ≤ '9' then some (c.toNat - 48)
  else if 'a' ≤ c ∧ c ≤ 'f' then some (c.toNat - 87)
  else if 'A' ≤ c ∧ c ≤ 'F' then some (c.toNat - 55)
  else none

/-- Digits of a base read from the left, after the value `acc`. -/
def parseDigits (base acc : Nat) (cs : List Char) : Option Nat :=
  match cs with
  | [] => some acc
  | c :: rest =>
    match digitValue c with
    | none => none
    | some d => if d < base then parseDigits base (acc * base + d) rest else none

/-- A number has at least one digit. -/
def parseNumber (base : Nat) (cs : List Char) : Option Nat :=
  if cs.isEmpty then none else parseDigits base 0 cs

/-- A byte as eight binary digits, the most significant first (R66). -/
def printByte (b : Byte) : List Char := (List.range 8).map fun n => if b.getMsbD n then '1' else '0'

/-- The encoded memory file: one byte a line, line `n` the byte of address `n` (R66). -/
def printImage (image : List Byte) : List (List Char) := image.map printByte

/-- A line of the permissive loader: pure binary digits are binary, else `0x` hexadecimal, else decimal (R66). DESIGN
CHOICE (log 18, safe), where R66 and N11 are silent: nothing is trimmed, so a line with a blank, a carriage return, a sign or
any other character beside its digits is refused, as are an empty line, the prefix `0X` and a value above 255; a line of
fewer or more than eight binary digits is read by its value. -/
def loadLine (line : List Char) : Option Byte :=
  let value :=
    if line.all (fun c => c == '0' || c == '1') then parseNumber 2 line
    else
      match line with
      | '0' :: 'x' :: digits => parseNumber 16 digits
      | _ => parseNumber 10 line
  match value with
  | none => none
  | some v => if v < 256 then some (BitVec.ofNat 8 v) else none

/-- The bytes of a file. DESIGN CHOICE (log 18, safe): one refused line refuses the file, and the number of lines is not
looked at here (boot refuses an image of more than 256 bytes). -/
def loadImage (lines : List (List Char)) : Option (List Byte) :=
  match lines with
  | [] => some []
  | line :: rest =>
    match loadLine line, loadImage rest with
    | some b, some bs => some (b :: bs)
    | _, _ => none

end Sys2Proof.Machine
end

