-- ==== Sys2Proof/Machine/Assembler.lean ====
section
/-! DEFINITION. Toolchain, not hardware: the two-pass assembler that produces a memory image (30_encoding.md R59 to R65).
No step depends on this file. The points of N10 that R59 and R65 leave open, label names among them, are settled as log 17
says; inputs the source does not cover are otherwise refused (U13). -/

namespace Sys2Proof.Machine

/-! ### Source text (R59, R60) -/

/-- White space inside a line. -/
def isBlank (c : Char) : Bool := c == ' ' || c == '\t' || c == '\r'

/-- What separates operand tokens: white space or a comma (R59). -/
def isSeparator (c : Char) : Bool := isBlank c || c == ','

/-- Lines are separated by newlines (R59). -/
def splitLines (text : List Char) : List (List Char) :=
  match text with
  | [] => [[]]
  | c :: rest =>
    match splitLines rest with
    | [] => [[c]]
    | line :: lines => if c == '\n' then [] :: line :: lines else (c :: line) :: lines

/-- Everything before the first `;` (R59). -/
def stripComment (line : List Char) : List Char := line.takeWhile fun c => c != ';'

/-- The line without the white space around it (R59). -/
def trim (line : List Char) : List Char :=
  ((line.dropWhile isBlank).reverse.dropWhile isBlank).reverse

/-- The tokens of a line, `current` being the one under way, its characters in reverse (R59). DESIGN CHOICE (log 17, safe),
where R59 says only that operands are separated by white space or commas: both count alike wherever they stand, so a comma
may also stand before the mnemonic, between it and the operand (`LOADI,5`), and after the last operand (`LOADI 5,`), and
separators may repeat. -/
def tokensFrom (current : List Char) (line : List Char) : List (List Char) :=
  match line with
  | [] => if current.isEmpty then [] else [current.reverse]
  | c :: rest =>
    if isSeparator c then
      if current.isEmpty then tokensFrom [] rest else current.reverse :: tokensFrom [] rest
    else tokensFrom (c :: current) rest

/-- The mnemonic of each opcode (R64). -/
def mnemonicOf : Opcode → List Char
  | .nop => ['N', 'O', 'P']
  | .store => ['S', 'T', 'O', 'R', 'E']
  | .add => ['A', 'D', 'D']
  | .sub => ['S', 'U', 'B']
  | .loadi => ['L', 'O', 'A', 'D', 'I']
  | .loadm => ['L', 'O', 'A', 'D', 'M']
  | .jmp => ['J', 'M', 'P']
  | .halt => ['H', 'A', 'L', 'T']
  | .push => ['P', 'U', 'S', 'H']
  | .pop => ['P', 'O', 'P']
  | .call => ['C', 'A', 'L', 'L']
  | .ret => ['R', 'E', 'T']
  | .jmpz => ['J', 'M', 'P', 'Z']
  | .mul => ['M', 'U', 'L']

/-- The mnemonic table with its one other spelling, `LOAD` for `LOADM` (R64). DESIGN CHOICE (log 17, safe): upper case only,
where R59 leaves the case open. -/
def opcodeOfMnemonic (token : List Char) : Option Opcode :=
  if token = ['L', 'O', 'A', 'D'] then some .loadm else opcodeMap.find? fun o => mnemonicOf o == token

/-- Why assembly aborts, with the number of the source line, which counts from 1 (R65; the base is a DESIGN CHOICE, log 17,
safe). -/
inductive AsmError where
  /-- The operand is neither a number nor a known label. -/
  | unresolvedOperand (line : Nat)
  /-- The first token is no mnemonic. -/
  | unknownMnemonic (line : Nat) (token : List Char)
  /-- The source says nothing of this input: a missing or surplus operand, a label defined twice, a label line that is not
  one name (U13). -/
  | notCovered (line : Nat)
  deriving DecidableEq, Repr

/-- A line that is not blank (R59, R60). -/
inductive SourceLine where
  | label (name : List Char)
  | instruction (op : Opcode) (operand : Option (List Char))
  deriving DecidableEq, Repr

/-- What a line says; a blank line says nothing (R59, R60). DESIGN CHOICE (log 17, safe), where R59 and N10 leave the
characters of a label name open: a label name is any non-empty token free of white space, `,` and `;`, one that begins with
a digit or `-`, holds a `:`, or spells a mnemonic or a number included; white space may stand before the closing `:`.
A line in which an
instruction follows a label's `:`, which R60 forbids, is refused as an unknown mnemonic (log 17). -/
def parseLine (number : Nat) (raw : List Char) : Except AsmError (Option SourceLine) :=
  let line := trim (stripComment raw)
  if line.isEmpty then .ok none
  else if line.getLast? = some ':' then
    let name := trim line.dropLast
    if tokensFrom [] name = [name] then .ok (some (.label name)) else .error (.notCovered number)
  else
    match tokensFrom [] line with
    | [] => .error (.notCovered number)
    | first :: operands =>
      match opcodeOfMnemonic first with
      | none => .error (.unknownMnemonic number first)
      | some o =>
        match o.format, operands with
        | .op, [] => .ok (some (.instruction o none))
        | .opk, [x] => .ok (some (.instruction o (some x)))
        | _, _ => .error (.notCovered number)

/-! ### The two passes (R61 to R63) -/

/-- The addresses of the labels (R60). -/
abbrev LabelTable := List (List Char × Nat)

/-- An instruction waiting for pass 2 (R62). -/
structure Pending where
  line : Nat
  addr : Nat
  op : Opcode
  operand : Option (List Char)
  deriving DecidableEq, Repr

/-- Pass 1: bind the labels and place the instructions, advancing the address by each instruction's size (R61, R62).
DESIGN CHOICE (log 17, safe), where N10 leaves the case of label names open: names are compared character for character,
so two that differ in case are two labels; a second definition of one name is refused. -/
def pass1 (lines : List (List Char)) (number addr : Nat) (labels : LabelTable) :
    Except AsmError (LabelTable × List Pending) :=
  match lines with
  | [] => .ok (labels, [])
  | raw :: rest =>
    match parseLine number raw with
    | .error e => .error e
    | .ok none => pass1 rest (number + 1) addr labels
    | .ok (some (.label name)) =>
      if (labels.lookup name).isSome then .error (.notCovered number)
      else pass1 rest (number + 1) addr (labels ++ [(name, addr)])
    | .ok (some (.instruction o x)) =>
      match pass1 rest (number + 1) (addr + o.format.size) labels with
      | .error e => .error e
      | .ok (table, pending) => .ok (table, ⟨number, addr, o, x⟩ :: pending)

/-- A numeric operand: `0x` hexadecimal, `0b` binary, else decimal (R59). DESIGN CHOICE (log 17, safe): a token with a sign is
no number, where N10 leaves negative literals open. -/
def parseOperand (token : List Char) : Option Nat :=
  match token with
  | '0' :: 'x' :: digits => parseNumber 16 digits
  | '0' :: 'b' :: digits => parseNumber 2 digits
  | _ => parseNumber 10 token

/-- A number first, and only if that fails a label (R63). DESIGN CHOICE (log 17, safe), where N10 leaves the case of label
names open: a label is looked up character for character, case included. -/
def resolveOperand (labels : LabelTable) (token : List Char) : Option Nat :=
  match parseOperand token with
  | some v => some v
  | none => labels.lookup token

/-- The bytes of one instruction, the operand wrapped to 8 bits (R63). -/
def emit (labels : LabelTable) (p : Pending) : Except AsmError (List Byte) :=
  match p.operand with
  | none => .ok (encode (p.op.withOperand 0))
  | some token =>
    match resolveOperand labels token with
    | some v => .ok (encode (p.op.withOperand (BitVec.ofNat 8 v)))
    | none => .error (.unresolvedOperand p.line)

/-- Pass 2: emit the instructions in order (R63). -/
def pass2 (labels : LabelTable) (pending : List Pending) : Except AsmError (List Byte) :=
  match pending with
  | [] => .ok []
  | p :: rest =>
    match emit labels p, pass2 labels rest with
    | .ok bytes, .ok image => .ok (bytes ++ image)
    | .error e, _ => .error e
    | .ok _, .error e => .error e

/-- The assembler, from source lines to a memory image (R62, R63); the address counter starts at the load origin.
DESIGN CHOICE (log 17, safe), where R65 says only "source line number": lines are numbered from 1. -/
def assemble (lines : List (List Char)) : Except AsmError (List Byte) :=
  match pass1 lines 1 Config.loadOrigin [] with
  | .error e => .error e
  | .ok (labels, pending) => pass2 labels pending

end Sys2Proof.Machine
end

