-- ==== Sys2Proof/Machine/HostView.lean ====
section
/-! DEFINITION. What the host does to the engine and reads from it: boot (70_reset_and_hazards.md R152), the ports that
show state (10_state.md R22) and the metrics (R18; 60_exceptions.md R137, R139). -/

namespace Sys2Proof.Machine

/-- The canonical memory that holds `bytes` from address `origin` upward and nothing else. -/
def Memory.ofBytes (origin : Nat) (bytes : List Byte) : Memory :=
  match bytes with
  | [] => []
  | b :: rest =>
    if b = Config.unwrittenByte then Memory.ofBytes (origin + 1) rest
    else (origin, b) :: Memory.ofBytes (origin + 1) rest

/-- Boot: memory zeroed, the image copied from the load origin upward, the engine reset (R152). An image that does not fit
has no defined loading and is refused (U12; log 18). -/
def boot (accReset : Byte) (zReset : Bool) (image : List Byte) : Option State :=
  if imageWellFormed image then some (State.resetWith accReset zReset (Memory.ofBytes Config.loadOrigin image)) else none

/-- The number of a fault kind on the `fault_kind` port (60_exceptions.md R127). -/
def FaultKind.code : FaultKind → BitVec 3
  | .outOfBoundsFetch => 1
  | .stackOverflow => 2
  | .stackUnderflow => 3
  | .unknownOpcode => 4

/-- The output ports that show state (10_state.md R22). -/
structure Ports where
  halted : Bool
  faultKind : BitVec 3
  /-- `FAULT.pc`; the spec gives the wire no value while there is no fault (log 16). -/
  faultPc : Option PcWord
  /-- `FAULT.info`; the spec gives the wire no value while there is no fault (log 16). -/
  faultInfo : Option Byte
  acc : Byte
  pc : PcWord
  sp : Byte
  z : Bool
  deriving DecidableEq, Repr

/-- The ports as functions of the state (R22), `fault_kind` 0 for none (R127). -/
def State.ports (s : State) : Ports where
  halted := s.halted
  faultKind := (s.fault.map fun r => r.kind.code).getD 0
  faultPc := s.fault.map fun r => r.pc
  faultInfo := s.fault.map fun r => r.info
  acc := s.acc
  pc := s.pc
  sp := s.sp
  z := s.z

/-- The metrics exposed to the caller (R18; 60_exceptions.md R137). -/
structure Metrics where
  icount : Nat
  cycles : Nat
  macc : Nat
  jt : Nat
  jnt : Nat
  maxdepth : Nat
  deriving DecidableEq, Repr

/-- The counters of a state. -/
def State.metrics (s : State) : Metrics where
  icount := s.icount
  cycles := s.cycles
  macc := s.macc
  jt := s.jt
  jnt := s.jnt
  maxdepth := s.maxdepth

end Sys2Proof.Machine
end

