-- ==== Sys2Proof/Machine/Run.lean ====
section
/-! DEFINITION. A run repeats the step while the engine is running (40_cycle.md R76). The budget of steps is the
executor's own and is no state of the machine (70_reset_and_hazards.md R159). -/

namespace Sys2Proof.Machine

/-- At most `budget` steps from a state, ending early when the engine has halted (R76). -/
def runFor (budget : Nat) (s : State) : State :=
  match budget with
  | 0 => s
  | n + 1 =>
    match step s with
    | .next t => runFor n t
    | .fault _ => s
    | .refused _ => s

/-- The source's contract `run(memory)`, under a budget: the final state if the run has ended in it (R76). -/
def runImage (accReset : Byte) (zReset : Bool) (image : List Byte) (budget : Nat) : Option State :=
  match boot accReset zReset image with
  | none => none
  | some s => if (runFor budget s).halted then some (runFor budget s) else none

end Sys2Proof.Machine
end

