-- ==== Sys2Proof/Safety.lean ====
section
/-! DEFINITION. The terms the statements use: the invariant of 10_state.md R24, how a run ended (40_cycle.md R76), and
comparing two outcomes while looking at part of the state. -/

namespace Sys2Proof

open Machine

/-- A fault record a step can leave (10_state.md R16): the address is at most 256, and only UnknownOpcode carries a byte. -/
def faultRecordWellFormed (r : FaultRecord) : Bool :=
  decide (r.pc.toNat ≤ 256) && (decide (r.kind = .unknownOpcode) || decide (r.info = 0))

/-- What every reachable state satisfies (10_state.md R24), with the canonical form of the memory image and the shape of
the fault record (R16). -/
structure Inv (s : State) : Prop where
  memCanonical : s.mem.wf = true
  pcInRange : s.pc.toNat ≤ 256
  faultHalts : s.fault ≠ none → s.halted = true
  faultShape : s.fault.all faultRecordWellFormed = true
  cyclesAreInstructions : s.cycles = s.icount
  depthRecorded : 255 - s.sp.toNat ≤ s.maxdepth
  depthBounded : s.maxdepth ≤ 255
  noWarning : s.warn = []

/-- `Z = 1` if and only if `ACC = 0` (R24, last clause; R14). -/
def FlagAgrees (s : State) : Prop := s.z = true ↔ s.acc = 0

/-- The run ended with HALT (40_cycle.md R76). -/
def CleanHalt (s : State) : Prop := s.halted = true ∧ s.fault = none

/-- The run ended in a fault (R76). -/
def FaultedEnd (s : State) : Prop := s.halted = true ∧ s.fault ≠ none

/-- The instruction writes the accumulator and so the flag (10_state.md R14). -/
def updatesFlag : Instr → Bool
  | .add _ | .sub _ | .loadi _ | .loadm _ | .pop | .mul _ => true
  | .nop | .store _ | .jmp _ | .halt | .push | .call _ | .ret | .jmpz _ => false

/-- The instruction uses the stack (10_state.md R13). -/
def usesStack : Instr → Bool
  | .push | .pop | .call _ | .ret => true
  | .nop | .store _ | .add _ | .sub _ | .loadi _ | .loadm _ | .jmp _ | .halt | .jmpz _ | .mul _ => false

/-- The state with its counters set to zero: what is left is all that may affect control flow (10_state.md R18). -/
def dropCounters (s : State) : State :=
  { s with icount := 0, cycles := 0, macc := 0, jt := 0, jnt := 0, maxdepth := 0 }

/-- The state with its memory image left out. -/
def dropMemory (s : State) : State := { s with mem := [] }

/-- Two outcomes are the same as far as `view` shows. -/
def SameOutcome (view : State → State) : Host.Outcome State Fault Refusal → Host.Outcome State Fault Refusal → Prop
  | .next a, .next b => view a = view b
  | .fault x, .fault y => x = y
  | .refused x, .refused y => x = y
  | _, _ => False

/-- Every byte of memory reads as before. -/
def MemoryUnchanged (s t : State) : Prop := ∀ a : Byte, t.mem.read a = s.mem.read a

/-- Every byte of memory but the one at `c` reads as before. -/
def MemoryUnchangedExcept (c : Byte) (s t : State) : Prop := ∀ a : Byte, a ≠ c → t.mem.read a = s.mem.read a

/-- The step was an ordinary one: no halt, no fault, no warning. -/
def NoEvent (s t : State) : Prop := t.halted = s.halted ∧ t.fault = s.fault ∧ t.warn = s.warn

/-- The exception every two-byte instruction shares: with its opcode byte `op` in cell 255 the operand fetch raises
OutOfBoundsFetch and the instruction has no effect (40_cycle.md R73; each instruction rule's "Exceptions"). -/
def OperandFetchFaults (op : Byte) : Prop :=
  ∀ s : State, s.halted = false → s.pc = 255 → s.mem.read 255 = op →
    ∃ t r, step s = .next t ∧ t.halted = true ∧ t.fault = some r ∧ r.kind = .outOfBoundsFetch ∧
      t.acc = s.acc ∧ t.z = s.z ∧ t.sp = s.sp ∧ t.warn = s.warn ∧ MemoryUnchanged s t

/-- A source line that is neither blank nor a label line (30_encoding.md R67). -/
def isInstructionLine (raw : List Char) : Bool :=
  !(trim (stripComment raw)).isEmpty && decide ((trim (stripComment raw)).getLast? ≠ some ':')

end Sys2Proof
end

