-- ==== Sys2Proof/Certificates/Slice0/Obligations.lean ====
section
/-! DEFINITION. What is claimed of the machine, from the numbered rules of the spec. -/

open Sys2Proof Sys2Proof.Machine

/-! ### Reset and boot -/

/-- 70_reset_and_hazards.md R150, 10_state.md R23: reset from any state gives every register its reset value, for every
value of the two open parameters, and leaves memory alone. `PC = 0` is the spec's decision D2, keeping memory its decision
D15 (log 3, log 9); that `State.reset` takes 0 for both parameters is this model's choice (log 1). -/
def Obligations.ResetLeavesTheseValues : Prop :=
  (∀ (a : Byte) (z : Bool) (s : State),
    (s.applyReset a z).acc = a ∧ (s.applyReset a z).pc = 0 ∧ (s.applyReset a z).sp = 255 ∧ (s.applyReset a z).z = z ∧
    (s.applyReset a z).halted = false ∧ (s.applyReset a z).fault = none ∧ (s.applyReset a z).warn = [] ∧
    (s.applyReset a z).metrics = ⟨0, 0, 0, 0, 0, 0⟩ ∧ (s.applyReset a z).mem = s.mem) ∧
  State.reset = State.reset.applyReset 0 false ∧
  ∀ addr : Byte, State.reset.mem.read addr = 0

/-- 70_reset_and_hazards.md R152: boot zeroes memory, copies byte `n` of the image to cell `n` and resets the engine. An
image longer than 256 bytes is refused (U12; log 18). Rests on the spec's decisions D2 (log 3) and D15 (log 9). -/
def Obligations.BootPlacesTheImage : Prop :=
  ∀ (a : Byte) (z : Bool) (image : List Byte),
    (image.length ≤ 256 → ∃ s, boot a z image = some s ∧ s = s.applyReset a z ∧
      ∀ addr : Byte, s.mem.read addr = (image[addr.toNat]?).getD 0) ∧
    (256 < image.length → boot a z image = none)

/-- 10_state.md R24: the invariant holds after reset, after boot with any image and any values of the open parameters, and
after a reset in any state that meets it. The canonical form of memory in it is this model's (log 9). -/
def Obligations.InvariantHoldsAfterReset : Prop :=
  Inv State.reset ∧
  (∀ (a : Byte) (z : Bool) (image : List Byte) (s : State), boot a z image = some s → Inv s) ∧
  ∀ (a : Byte) (z : Bool) (s : State), Inv s → Inv (s.applyReset a z)

/-! ### Encoding -/

/-- 30_encoding.md R50 to R55: bytes decode to an instruction and a rest exactly when they are that instruction's encoding
followed by that rest, for every instruction and every operand. -/
def Obligations.DecodeInvertsEncode : Prop :=
  ∀ (bytes : List Byte) (i : Instr) (rest : List Byte),
    decode bytes = .ok (i, rest) ↔ bytes = encode i ++ rest

/-- 30_encoding.md R53: the opcode byte alone decides the length, whatever byte follows; every value but 1 to 14 is no
instruction. -/
def Obligations.OpcodeByteDecidesLength : Prop :=
  ∀ (op k : Byte) (rest : List Byte),
    (op.toNat ∈ [1, 8, 9, 10, 12] →
      ∃ i, decode (op :: rest) = .ok (i, rest) ∧ i.size = 1 ∧ i.operand? = none) ∧
    (op.toNat ∈ [2, 3, 4, 5, 6, 7, 11, 13, 14] →
      ∃ i, decode (op :: k :: rest) = .ok (i, rest) ∧ i.size = 2 ∧ i.operand? = some k) ∧
    (op.toNat = 0 ∨ 15 ≤ op.toNat → decode (op :: rest) = .error (.unknownOpcode op))

/-- 30_encoding.md R51, R52, R55: words written out from the opcode map decode to the instructions they stand for. -/
def Obligations.WordsOfTheOpcodeMapDecode : Prop :=
  decode [0b00000001#8] = .ok (.nop, []) ∧
  decode [0b00000010#8, 0b01100100#8] = .ok (.store 100, []) ∧
  decode [0b00000100#8, 0b00000010#8] = .ok (.sub 2, []) ∧
  decode [0b00001001#8] = .ok (.push, []) ∧
  decode [0b00001011#8, 0b00010100#8] = .ok (.call 20, []) ∧
  decode [0b00001101#8, 0b00011010#8] = .ok (.jmpz 26, [])

/-! ### The cycle -/

/-- 40_cycle.md R70 to R73: a running engine whose memory holds the encoding of `i` at the program counter, all of it
below the top, takes the step `exec i`; and so does one whose bytes at the program counter decode to `i`. The advance past
the bytes is part of `exec` and is stated per instruction (log 12). -/
def Obligations.StepRunsTheDecodedInstruction : Prop :=
  (∀ (s : State) (i : Instr), s.halted = false → s.pc.toNat + i.size ≤ 256 →
    (∀ (n : Nat) (b : Byte), (encode i)[n]? = some b → s.mem.read (BitVec.ofNat 8 (s.pc.toNat + n)) = b) →
    step s = exec i s) ∧
  ∀ (s : State) (i : Instr) (rest : List Byte), s.halted = false → decode (window s) = .ok (i, rest) →
    step s = exec i s

/-- 40_cycle.md R70: a step is enabled exactly when `HALTED = 0`, and then it always answers a next state, whatever the
memory holds; a halted engine has no step (its stop's name is this model's choice, log 11). -/
def Obligations.StepEnabledExactlyWhenRunning : Prop :=
  ∀ s : State, ((∃ t, step s = .next t) ↔ s.halted = false) ∧ (s.halted = true → step s = .fault .halted)

/-- 40_cycle.md R71, 60_exceptions.md R122 case (a): an opcode fetch above 255 raises OutOfBoundsFetch, reads nothing and
changes nothing else. Rests on the spec's decisions D1 and D7 (log 2, log 6). -/
def Obligations.OpcodeFetchAboveTopFaults : Prop :=
  ∀ s : State, s.halted = false → 255 < s.pc.toNat →
    step s = .next { s with fault := some ⟨.outOfBoundsFetch, s.pc, 0⟩, halted := true }

/-- 40_cycle.md R73, 60_exceptions.md R122 case (b), R129: a two-byte opcode in cell 255 raises OutOfBoundsFetch after one
read, whatever the stack pointer holds. Rests on the spec's decisions D6, D7, D9 (log 5, log 6). -/
def Obligations.OperandFetchAtTopFaults : Prop :=
  ∀ s : State, s.halted = false → s.pc = 255 → (s.mem.read 255).toNat ∈ [2, 3, 4, 5, 6, 7, 11, 13, 14] →
    step s = .next { s with
      pc := 256, macc := s.macc + 1, fault := some ⟨.outOfBoundsFetch, 255, 0⟩, halted := true }

/-- 40_cycle.md R72, 60_exceptions.md R125, R129: an opcode byte 0 or 15 to 255 raises UnknownOpcode with the byte and its
address, after one read; no operand is fetched. Rests on the spec's decisions D7 and D9 (log 6). -/
def Obligations.UnknownOpcodeFaults : Prop :=
  ∀ (s : State) (addr : Byte), s.halted = false → s.pc = zext9 addr →
    ((s.mem.read addr).toNat = 0 ∨ 15 ≤ (s.mem.read addr).toNat) →
    step s = .next { s with
      pc := s.pc + 1
      macc := s.macc + 1
      fault := some ⟨.unknownOpcode, s.pc, s.mem.read addr⟩
      halted := true }

/-! ### The instructions -/

/-- 43_control.md R100: NOP changes no register and no memory cell but the program counter, and is counted; in cell 255 it
completes with `PC = 256` and the following step faults with OutOfBoundsFetch. -/
def Obligations.NopOnlyAdvances : Prop :=
  ∀ s : State, ∃ t, exec .nop s = .next t ∧ t.pc = s.pc + 1 ∧ t.acc = s.acc ∧ t.z = s.z ∧ t.sp = s.sp ∧
    NoEvent s t ∧ MemoryUnchanged s t ∧ t.icount = s.icount + 1 ∧ t.cycles = s.cycles + 1 ∧
    (s.pc = 255 → t.pc = 256 ∧
      (s.halted = false → ∃ u r, step t = .next u ∧ u.halted = true ∧ u.fault = some r ∧ r.kind = .outOfBoundsFetch))

/-- 41_load_store.md R85: STORE writes the accumulator to cell `k`, any `k`, and nothing else. -/
def Obligations.StoreWritesTheAccumulator : Prop :=
  (∀ (k : Byte) (s : State), ∃ t, exec (.store k) s = .next t ∧ t.mem.read k = s.acc ∧ MemoryUnchangedExcept k s t ∧
    t.acc = s.acc ∧ t.z = s.z ∧ t.sp = s.sp ∧ t.pc = s.pc + 2 ∧ NoEvent s t) ∧
  OperandFetchFaults 2

/-- 41_load_store.md R86: LOADI puts the operand byte in the accumulator and updates the flag from it; beyond the two
fetches it touches no memory, so it does the same over any memory. -/
def Obligations.LoadImmediateSetsAccumulator : Prop :=
  (∀ (k : Byte) (s : State), ∃ t, exec (.loadi k) s = .next t ∧ t.acc = k ∧ (t.z = true ↔ k = 0) ∧ t.sp = s.sp ∧
    t.pc = s.pc + 2 ∧ NoEvent s t ∧ MemoryUnchanged s t ∧
    ∀ m : Memory, exec (.loadi k) { s with mem := m } = .next { t with mem := m }) ∧
  OperandFetchFaults 5

/-- 41_load_store.md R87: LOADM puts the byte of cell `k` in the accumulator and updates the flag from it. -/
def Obligations.LoadMemorySetsAccumulator : Prop :=
  (∀ (k : Byte) (s : State), ∃ t, exec (.loadm k) s = .next t ∧ t.acc = s.mem.read k ∧
    (t.z = true ↔ s.mem.read k = 0) ∧ t.sp = s.sp ∧ t.pc = s.pc + 2 ∧ NoEvent s t ∧ MemoryUnchanged s t) ∧
  OperandFetchFaults 6

/-- 42_arithmetic.md R90: ADD leaves (ACC + MEM[k]) mod 256 and updates the flag. -/
def Obligations.AddIsModulo256 : Prop :=
  (∀ (k : Byte) (s : State), ∃ t, exec (.add k) s = .next t ∧
    t.acc.toNat = (s.acc.toNat + (s.mem.read k).toNat) % 256 ∧ (t.z = true ↔ t.acc = 0) ∧ t.sp = s.sp ∧
    t.pc = s.pc + 2 ∧ NoEvent s t ∧ MemoryUnchanged s t) ∧
  OperandFetchFaults 3

/-- 42_arithmetic.md R91: SUB leaves ACC - MEM[k], or ACC - MEM[k] + 256 where that is negative, and updates the flag,
which is set exactly when the operands were equal. -/
def Obligations.SubtractIsModulo256 : Prop :=
  (∀ (k : Byte) (s : State), ∃ t, exec (.sub k) s = .next t ∧
    ((s.mem.read k).toNat ≤ s.acc.toNat → t.acc.toNat = s.acc.toNat - (s.mem.read k).toNat) ∧
    (s.acc.toNat < (s.mem.read k).toNat → t.acc.toNat = s.acc.toNat + 256 - (s.mem.read k).toNat) ∧
    (t.z = true ↔ t.acc = 0) ∧ (t.z = true ↔ s.acc = s.mem.read k) ∧ t.sp = s.sp ∧
    t.pc = s.pc + 2 ∧ NoEvent s t ∧ MemoryUnchanged s t) ∧
  OperandFetchFaults 4

/-- 42_arithmetic.md R92: MUL leaves the low 8 bits of the product and updates the flag. -/
def Obligations.MultiplyIsModulo256 : Prop :=
  (∀ (k : Byte) (s : State), ∃ t, exec (.mul k) s = .next t ∧
    t.acc.toNat = (s.acc.toNat * (s.mem.read k).toNat) % 256 ∧ (t.z = true ↔ t.acc = 0) ∧ t.sp = s.sp ∧
    t.pc = s.pc + 2 ∧ NoEvent s t ∧ MemoryUnchanged s t) ∧
  OperandFetchFaults 14

/-- 43_control.md R101: JMP sets the program counter to the operand. That it counts in `JT` is the spec's decision D11
(log 8). -/
def Obligations.JumpGoesToTheOperand : Prop :=
  (∀ (k : Byte) (s : State), ∃ t, exec (.jmp k) s = .next t ∧ t.pc.toNat = k.toNat ∧ t.jt = s.jt + 1 ∧ t.jnt = s.jnt ∧
    t.acc = s.acc ∧ t.z = s.z ∧ t.sp = s.sp ∧ NoEvent s t ∧ MemoryUnchanged s t) ∧
  OperandFetchFaults 7

/-- 43_control.md R102: JMPZ jumps exactly when the flag is set, and changes neither the flag nor the accumulator. The
counters are the spec's decision D11 (log 8). -/
def Obligations.JumpIfZeroTestsTheFlag : Prop :=
  (∀ (k : Byte) (s : State), ∃ t, exec (.jmpz k) s = .next t ∧
    (s.z = true → t.pc.toNat = k.toNat ∧ t.jt = s.jt + 1 ∧ t.jnt = s.jnt) ∧
    (s.z = false → t.pc = s.pc + 2 ∧ t.jt = s.jt ∧ t.jnt = s.jnt + 1) ∧
    t.acc = s.acc ∧ t.z = s.z ∧ t.sp = s.sp ∧ NoEvent s t ∧ MemoryUnchanged s t) ∧
  OperandFetchFaults 13

/-- 43_control.md R103: HALT halts the engine cleanly, everything else kept. That the step is counted is the spec's
decision D16 (log 8). -/
def Obligations.HaltEndsTheRun : Prop :=
  ∀ s : State, ∃ t, exec .halt s = .next t ∧ t.halted = true ∧ t.fault = s.fault ∧ t.warn = s.warn ∧ t.pc = s.pc + 1 ∧
    t.acc = s.acc ∧ t.z = s.z ∧ t.sp = s.sp ∧ MemoryUnchanged s t ∧ t.icount = s.icount + 1 ∧ t.cycles = s.cycles + 1

/-- 44_stack_call.md R110, 40_cycle.md R78: PUSH with room writes the accumulator to the cell `SP` names and moves `SP`
down by one. The cell rests on the spec's decision D5 (log 4), the peak depth on D11 (log 8). -/
def Obligations.PushStoresTheAccumulator : Prop :=
  ∀ s : State, s.sp ≠ 0 → ∃ t, exec .push s = .next t ∧ t.mem.read s.sp = s.acc ∧ MemoryUnchangedExcept s.sp s t ∧
    t.sp.toNat = s.sp.toNat - 1 ∧ t.maxdepth = max s.maxdepth (255 - t.sp.toNat) ∧ t.pc = s.pc + 1 ∧ t.acc = s.acc ∧
    t.z = s.z ∧ NoEvent s t

/-- 44_stack_call.md R111, 40_cycle.md R79: POP with an entry moves `SP` up by one, loads the cell it then names and updates
the flag. The cell rests on the spec's decision D5 (log 4). -/
def Obligations.PopLoadsTheAccumulator : Prop :=
  ∀ s : State, s.sp ≠ 255 → ∃ t, exec .pop s = .next t ∧ t.sp.toNat = s.sp.toNat + 1 ∧ t.acc = s.mem.read t.sp ∧
    (t.z = true ↔ t.acc = 0) ∧ t.pc = s.pc + 1 ∧ NoEvent s t ∧ MemoryUnchanged s t

/-- 44_stack_call.md R112: CALL with room pushes the low byte of the address after it and jumps to the operand. The cell
rests on the spec's decision D5 (log 4), the byte pushed for 256 on D10 (log 7), the counters on D11 (log 8). -/
def Obligations.CallPushesTheReturnAddress : Prop :=
  (∀ (k : Byte) (s : State), s.sp ≠ 0 → ∃ t, exec (.call k) s = .next t ∧
    (t.mem.read s.sp).toNat = (s.pc.toNat + 2) % 256 ∧ MemoryUnchangedExcept s.sp s t ∧
    t.sp.toNat = s.sp.toNat - 1 ∧ t.maxdepth = max s.maxdepth (255 - t.sp.toNat) ∧ t.pc.toNat = k.toNat ∧
    t.jt = s.jt + 1 ∧ t.jnt = s.jnt ∧ t.acc = s.acc ∧ t.z = s.z ∧ NoEvent s t) ∧
  OperandFetchFaults 11

/-- 44_stack_call.md R113: RET with an entry pops a byte into the program counter; flag, accumulator and jump counters are
kept. The cell rests on the spec's decision D5 (log 4). -/
def Obligations.ReturnPopsTheProgramCounter : Prop :=
  ∀ s : State, s.sp ≠ 255 → ∃ t, exec .ret s = .next t ∧ t.sp.toNat = s.sp.toNat + 1 ∧
    t.pc.toNat = (s.mem.read t.sp).toNat ∧ t.acc = s.acc ∧ t.z = s.z ∧ t.jt = s.jt ∧ t.jnt = s.jnt ∧ NoEvent s t ∧
    MemoryUnchanged s t

/-- 60_exceptions.md R123: a push with `SP = 0` raises StackOverflow with nothing written and no jump. Rests on the spec's
decision D7 (log 6). -/
def Obligations.PushAndCallOverflow : Prop :=
  ∀ (k : Byte) (s : State), s.sp = 0 →
    exec .push s = .next { s with
      pc := s.pc + 1, macc := s.macc + 1, fault := some ⟨.stackOverflow, s.pc, 0⟩, halted := true } ∧
    exec (.call k) s = .next { s with
      pc := s.pc + 2, macc := s.macc + 2, fault := some ⟨.stackOverflow, s.pc, 0⟩, halted := true }

/-- 60_exceptions.md R124: a pop with `SP = 255` raises StackUnderflow with nothing read. Rests on the spec's decision D7
(log 6). -/
def Obligations.PopAndReturnUnderflow : Prop :=
  ∀ s : State, s.sp = 255 →
    exec .pop s = .next { s with
      pc := s.pc + 1, macc := s.macc + 1, fault := some ⟨.stackUnderflow, s.pc, 0⟩, halted := true } ∧
    exec .ret s = .next { s with
      pc := s.pc + 1, macc := s.macc + 1, fault := some ⟨.stackUnderflow, s.pc, 0⟩, halted := true }

/-! ### Frames -/

/-- 40_cycle.md R77, 10_state.md R11, R14: the six flag-updating instructions leave the flag telling whether the accumulator
is zero, and no other instruction, and no stack fault, changes the flag or the accumulator. That the other eight leave the
flag is the spec's reading of unmarked rows (derived in R14, N15; log 19, DEDUCED); that a stack fault leaves both is
60_exceptions.md R121, the spec's decision D7 (log 6). -/
def Obligations.OnlySixInstructionsUpdateTheFlag : Prop :=
  ∀ (i : Instr) (s t : State), exec i s = .next t →
    (updatesFlag i = true → stackFaults i s = false → (t.z = true ↔ t.acc = 0)) ∧
    (updatesFlag i = false ∨ stackFaults i s = true → t.z = s.z ∧ t.acc = s.acc)

/-- 42_arithmetic.md R94: after ADD, SUB and MUL the flag is set exactly when the wrapped result is 0: when the sum is 0 or
256, when the operands are equal, when the product is a multiple of 256. -/
def Obligations.FlagReflectsTheWrappedResult : Prop :=
  ∀ (k : Byte) (s : State),
    (∃ t, exec (.add k) s = .next t ∧ (t.z = true ↔ t.acc = 0) ∧
      (t.z = true ↔ s.acc.toNat + (s.mem.read k).toNat = 0 ∨ s.acc.toNat + (s.mem.read k).toNat = 256)) ∧
    (∃ t, exec (.sub k) s = .next t ∧ (t.z = true ↔ t.acc = 0) ∧
      (t.z = true ↔ s.acc.toNat = (s.mem.read k).toNat)) ∧
    (∃ t, exec (.mul k) s = .next t ∧ (t.z = true ↔ t.acc = 0) ∧
      (t.z = true ↔ 256 ∣ s.acc.toNat * (s.mem.read k).toNat))

/-- 20_memory.md R33: for each of the fourteen instructions, the byte it stores, if it stores one, is in the one cell the
meaning computes, and every other byte of memory reads as before. The stack cell rests on the spec's decision D5 (log 4). -/
def Obligations.MemoryChangesOnlyAtTheStoredCell : Prop :=
  ∀ (i : Instr) (s t : State), exec i s = .next t →
    (∀ c : Byte, storedCell i s = some c → t.mem.read c = storedByte i s) ∧
    ∀ a : Byte, storedCell i s ≠ some a → t.mem.read a = s.mem.read a

/-- The frame of all fourteen instructions outside memory, from the table of 10_state.md R10 and R18: `SP` and the peak
depth change only in the stack instructions, the jump counters only in JMP, JMPZ and CALL, `HALTED` only in HALT and a
stack fault, `FAULT` only in a stack fault, `WARN` never (accumulator and flag: OnlySixInstructionsUpdateTheFlag). The
counters rest on the spec's decision D11 (log 8), what a stack fault leaves on its decision D7 (log 6). -/
def Obligations.RegistersChangeOnlyWhereNamed : Prop :=
  ∀ (i : Instr) (s t : State), exec i s = .next t →
    (usesStack i = false ∨ stackFaults i s = true → t.sp = s.sp ∧ t.maxdepth = s.maxdepth) ∧
    (i ∈ [Instr.pop, Instr.ret] → t.maxdepth = s.maxdepth) ∧
    ((∀ k, i ≠ .jmp k ∧ i ≠ .jmpz k ∧ i ≠ .call k) ∨ stackFaults i s = true → t.jt = s.jt ∧ t.jnt = s.jnt) ∧
    (i ≠ .halt → stackFaults i s = false → t.halted = s.halted) ∧
    (stackFaults i s = false → t.fault = s.fault) ∧
    t.warn = s.warn

/-! ### Whole-machine rules -/

/-- 10_state.md R24: every step keeps the invariant: `PC <= 256`, a fault implies halted, `CYCLES = ICOUNT`,
`MAXDEPTH >= 255 - SP`, no warning, with the canonical form of memory and the shape of the fault record. The bound on `PC`
rests on the spec's decision D1 (log 2), the fault record on D7 (log 6), the counters on D11 (log 8); the canonical form of
memory is this model's (log 9). -/
def Obligations.StepKeepsTheInvariant : Prop :=
  ∀ s t : State, Inv s → step s = .next t → Inv t

/-- 10_state.md R14, R24: once the flag agrees with the accumulator, every step keeps it so, a faulting step included. That
unmarked rows leave the flag is the spec's reading (N15; log 19), that a fault does its decision D7 (log 6). -/
def Obligations.StepKeepsFlagAgreement : Prop :=
  ∀ s t : State, FlagAgrees s → step s = .next t → FlagAgrees t

/-- 10_state.md R24, whole: in every state a run from boot reaches, for every image and every value of the open parameters,
the invariant holds; and `Z = 1` if and only if `ACC = 0` once a step has executed a flag-updating instruction. Of the
invariant, `PC <= 256` rests on the spec's decision D1 (log 2), the fault record on D7 (log 6), the counters on D11 (log 8),
and the canonical form of memory is this model's (log 9); that later steps keep the flag rests on N15 (log 19) and D7. -/
def Obligations.ReachableStatesMeetTheInvariants : Prop :=
  ∀ (a : Byte) (z : Bool) (image : List Byte) (s : State), boot a z image = some s → ∀ n : Nat,
    Inv (runFor n s) ∧
    ∀ (j : Nat) (i : Instr), j < n → (runFor j s).halted = false → fetch (runFor j s) = .ok i →
      updatesFlag i = true → stackFaults i (runFor j s) = false → FlagAgrees (runFor n s)

/-- 60_exceptions.md R121: a step that faults records the address of its opcode byte, halts the engine, and has had no effect
on `ACC`, `Z`, `SP`, memory, the warnings or any counter but the memory accesses. Rests on the spec's decision D7 (log 6). -/
def Obligations.FaultsArePrecise : Prop :=
  ∀ s t : State, s.fault = none → step s = .next t → t.fault ≠ none →
    t.halted = true ∧ (∃ kind info, t.fault = some ⟨kind, s.pc, info⟩) ∧ t.acc = s.acc ∧ t.z = s.z ∧ t.sp = s.sp ∧
    t.mem = s.mem ∧ t.warn = s.warn ∧ t.icount = s.icount ∧ t.cycles = s.cycles ∧ t.jt = s.jt ∧ t.jnt = s.jnt ∧
    t.maxdepth = s.maxdepth

/-- 10_state.md R15, 40_cycle.md R76: a step halts the engine only by a fault or by executing the HALT byte, and then the end
is a faulted one or a clean one accordingly. -/
def Obligations.OnlyHaltAndFaultsHalt : Prop :=
  ∀ s t : State, s.fault = none → step s = .next t → t.halted = true →
    FaultedEnd t ∨ (s.pc.toNat ≤ 255 ∧ s.mem.read (pcByte s.pc) = 8 ∧ CleanHalt t)

/-- 10_state.md R13: a step moves the stack pointer by at most one and never wraps it; down only by PUSH and CALL, up only by
POP and RET. -/
def Obligations.StackPointerMovesByOne : Prop :=
  ∀ s t : State, step s = .next t →
    t.sp = s.sp ∨
    (t.sp.toNat + 1 = s.sp.toNat ∧ (fetch s = .ok .push ∨ ∃ k, fetch s = .ok (.call k))) ∨
    (t.sp.toNat = s.sp.toNat + 1 ∧ (fetch s = .ok .pop ∨ fetch s = .ok .ret))

/-- 40_cycle.md R74, 70_reset_and_hazards.md R160, 10_state.md R18: a step that does not fault counts one instruction and one
cycle, one that faults counts neither, and no counter ever goes down. Which events count is the spec's decision D11 and
D16 (log 8). -/
def Obligations.StepsAreCounted : Prop :=
  ∀ s t : State, s.fault = none → step s = .next t →
    (t.fault = none → t.icount = s.icount + 1 ∧ t.cycles = s.cycles + 1) ∧
    (t.fault ≠ none → t.icount = s.icount ∧ t.cycles = s.cycles) ∧
    s.macc ≤ t.macc ∧ s.jt ≤ t.jt ∧ s.jnt ≤ t.jnt ∧ s.maxdepth ≤ t.maxdepth

/-- 10_state.md R18: the counters never affect control flow: two states that differ only in their counters take steps that
differ only in the counters. -/
def Obligations.CountersNeverAffectTheRun : Prop :=
  ∀ s u : State, dropCounters s = dropCounters u → SameOutcome dropCounters (step s) (step u)

/-- 20_memory.md R33: the table of accesses lists every cell a step reads: two memories that agree on the listed reads give
steps that agree on everything but memory. The stack cells rest on the spec's decision D5 (log 4). -/
def Obligations.ListedReadsDecideTheStep : Prop :=
  ∀ (s : State) (m : Memory), (∀ a : Byte, Access.read a ∈ accesses s → m.read a = s.mem.read a) →
    SameOutcome dropMemory (step s) (step { s with mem := m })

/-- 20_memory.md R33, 10_state.md R18: a step counts as many memory accesses as the table lists for it, at most three, and
changes no cell the table does not list as written. What counts is the spec's decision D11 (log 8). -/
def Obligations.StepMakesTheListedAccesses : Prop :=
  ∀ s t : State, step s = .next t →
    t.macc = s.macc + (accesses s).length ∧ (accesses s).length ≤ 3 ∧
    ∀ a : Byte, Access.write a ∉ accesses s → t.mem.read a = s.mem.read a

/-- 40_cycle.md R76, 60_exceptions.md R131: Halted is terminal: once a run has halted, more steps change nothing. -/
def Obligations.HaltedRunsStayAsTheyAre : Prop :=
  ∀ (m n : Nat) (s : State), (runFor m s).halted = true → runFor (m + n) s = runFor m s

/-! ### Laws between instructions -/

/-- 40_cycle.md R79, test vector S5: a pop after a push gives the pushed byte back and restores the stack pointer, in either
order of write and decrement; PUSH then POP leaves the accumulator unchanged and sets the flag from it. -/
def Obligations.PushThenPopRestores : Prop :=
  (∀ (pre : Bool) (v : Byte) (s s1 : State), s.pushWith pre v = .ok s1 →
    ∃ s2, s1.popWith pre = .ok (v, s2) ∧ s2.sp = s.sp ∧ s2.acc = s.acc ∧ s2.mem = s1.mem) ∧
  ∀ s t : State, s.sp ≠ 0 → exec .push s = .next t →
    ∃ u, exec .pop t = .next u ∧ u.acc = s.acc ∧ u.sp = s.sp ∧ (u.z = true ↔ s.acc = 0)

/-- 44_stack_call.md R112, R113, test vector S6: a RET that finds the stack pointer and the stack cell as CALL left them
continues at the address after the CALL, or at 0 when that is 256 (the spec's decision D10, log 7). -/
def Obligations.CallThenReturnContinuesAfterTheCall : Prop :=
  ∀ (k : Byte) (s t u : State), s.sp ≠ 0 → exec (.call k) s = .next t → u.sp = t.sp →
    u.mem.read (pushCell Config.stackPreDecrement s.sp) = t.mem.read (pushCell Config.stackPreDecrement s.sp) →
    ∃ v, exec .ret u = .next v ∧ v.sp = s.sp ∧ v.pc.toNat = (s.pc.toNat + 2) % 256

/-- 43_control.md R102, test vector S7: JMPZ after LOADI 0 always branches, JMPZ after LOADI of any other value never
does, whatever the flag and accumulator were before. -/
def Obligations.JumpIfZeroFollowsLoadImmediate : Prop :=
  ∀ (v k : Byte) (s t : State), exec (.loadi v) s = .next t →
    ∃ u, exec (.jmpz k) t = .next u ∧ (v = 0 → u.pc.toNat = k.toNat) ∧ (v ≠ 0 → u.pc = s.pc + 4)

/-- 20_memory.md R42: a byte that STORE, PUSH or CALL writes is what the very next fetch of its cell reads: if it is a
one-byte instruction and the program counter names its cell, the next step executes it. -/
def Obligations.StoredByteIsFetchedAtOnce : Prop :=
  ∀ (i j : Instr) (s t : State) (c : Byte), exec i s = .next t → storedCell i s = some c → t.halted = false →
    t.pc = zext9 c → encode j = [storedByte i s] → step t = exec j t

/-! ### Memory, policy, host -/

/-- 20_memory.md R31: MemRead gives the cell and changes nothing but `MACC`; MemWrite sets the cell, leaves every other cell
and everything else alone and adds one to `MACC`. That a write keeps the canonical form is a property of this model's
representation of memory, its own choice (DESIGN CHOICE, log 9). -/
def Obligations.MemoryPrimitivesReadAndWriteOneCell : Prop :=
  ∀ (s : State) (a v : Byte),
    s.memRead a = (s.mem.read a, { s with macc := s.macc + 1 }) ∧
    (s.memWrite a v).mem.read a = v ∧ MemoryUnchangedExcept a s (s.memWrite a v) ∧
    { s.memWrite a v with mem := s.mem } = { s with macc := s.macc + 1 } ∧
    (s.mem.wf = true → (s.memWrite a v).mem.wf = true)

/-- The memory image is held canonically (log 9): two images in the form that read the same everywhere are equal. This is a
property of the model's representation of 10_state.md R20. -/
def Obligations.CanonicalMemoriesWithEqualReadsAreEqual : Prop :=
  ∀ m n : Memory, m.wf = true → n.wf = true → (∀ a : Byte, m.read a = n.read a) → m = n

/-- 60_exceptions.md R126, the spec's decision D14 (log 10): in a memory smaller than 256 cells an operand outside it makes no
access, records the warning, supplies 0 as data, stores nothing, and turns JMP and CALL into jumps not taken; with 256
cells no operand is outside. -/
def Obligations.OutOfRangeOperandsDegrade : Prop :=
  (∀ (memSize : Nat) (pc0 : PcWord) (k v : Byte) (s : State), memSize ≤ k.toNat →
    s.loadOperand memSize pc0 k = (0, { s with warn := s.warn ++ [⟨.outOfRangeOperand, pc0, k⟩] }) ∧
    s.storeOperand memSize pc0 k v = { s with warn := s.warn ++ [⟨.outOfRangeOperand, pc0, k⟩] } ∧
    s.jumpOperand memSize pc0 k =
      { s with warn := s.warn ++ [⟨.outOfRangeOperand, pc0, k⟩], jnt := s.jnt + 1 } ∧
    s.callOperand memSize pc0 k =
      .ok { s with warn := s.warn ++ [⟨.outOfRangeOperand, pc0, k⟩], jnt := s.jnt + 1 }) ∧
  ∀ k : Byte, operandInRange Config.memSize k = true

/-- 10_state.md R22, 60_exceptions.md R127, R139: the host sees the registers, the halted flag and the fault, its kind by
number, 0 for none. The numbers are the spec's decision D8, the ports its decision D12 (log 16). -/
def Obligations.PortsShowTheState : Prop :=
  ∀ s : State,
    s.ports.halted = s.halted ∧ s.ports.acc = s.acc ∧ s.ports.pc = s.pc ∧ s.ports.sp = s.sp ∧ s.ports.z = s.z ∧
    (s.fault = none → s.ports.faultKind = 0) ∧
    ∀ r, s.fault = some r → s.ports.faultPc = some r.pc ∧ s.ports.faultInfo = some r.info ∧
      (r.kind = .outOfBoundsFetch → s.ports.faultKind = 1) ∧ (r.kind = .stackOverflow → s.ports.faultKind = 2) ∧
      (r.kind = .stackUnderflow → s.ports.faultKind = 3) ∧ (r.kind = .unknownOpcode → s.ports.faultKind = 4)

/-! ### The toolchain's description -/

/-- 30_encoding.md R61 to R63, R67: an image that assembles is the concatenation of the encodings of as many instructions as
there are lines that are neither blank nor labels, and so as long as their sizes together. Which characters are blank is this
model's choice (log 17). -/
def Obligations.AssembledImageIsItsInstructions : Prop :=
  ∀ (lines : List (List Char)) (image : List Byte), assemble lines = .ok image →
    ∃ program : List Instr, program.length = (lines.filter isInstructionLine).length ∧
      image = program.flatMap encode ∧ image.length = (program.map Instr.size).sum

/-- 30_encoding.md R66: every image written as an encoded memory file is read back by the loader as it was. -/
def Obligations.EncodedFileLoadsBack : Prop :=
  ∀ image : List Byte, loadImage (printImage image) = some image
end

