-- ==== Sys2Proof/Laws/Decode.lean ====
section
/-! SUPPORT. The opcode map read both ways, and the decoder's cases. -/

namespace Sys2Proof

@[simp] theorem Opcode.ofByte_code (o : Opcode) : Opcode.ofByte o.code = some o := by cases o <;> rfl

/-- Only the code of an opcode selects it. -/
theorem Opcode.code_of_ofByte {b : Byte} {o : Opcode} (h : Opcode.ofByte b = some o) : b = o.code := by
  have := List.find?_some h
  exact (beq_iff_eq.mp this).symm

/-- The bytes that select nothing are 0 and 15 to 255. -/
theorem Opcode.ofByte_eq_none (b : Byte) : Opcode.ofByte b = none ↔ b.toNat < 1 ∨ 14 < b.toNat := by
  revert b; decide

@[simp] theorem Opcode.opcode_withOperand (o : Opcode) (k : Byte) : (o.withOperand k).opcode = o := by cases o <;> rfl

theorem Instr.operand?_op {i : Instr} (h : i.opcode.format = .op) : i.operand? = none := by
  cases i <;> first | rfl | simp [Instr.opcode, Opcode.format] at h

theorem Instr.withOperand_op {i : Instr} (h : i.opcode.format = .op) (k : Byte) : i.opcode.withOperand k = i := by
  cases i <;> first | rfl | simp [Instr.opcode, Opcode.format] at h

theorem Opcode.operand?_withOperand {o : Opcode} (h : o.format = .opk) (k : Byte) :
    (o.withOperand k).operand? = some k := by
  cases o <;> first | rfl | exact absurd h (by decide)

theorem Instr.operand?_opk {i : Instr} (h : i.opcode.format = .opk) :
    ∃ k, i.operand? = some k ∧ i.opcode.withOperand k = i := by
  cases i <;> first | exact ⟨_, rfl, rfl⟩ | simp [Instr.opcode, Opcode.format] at h

/-- The decoder on a byte that starts a one-byte instruction. -/
theorem decode_op {b : Byte} {o : Opcode} (hb : Opcode.ofByte b = some o) (hf : o.format = .op) (rest : List Byte) :
    decode (b :: rest) = .ok (o.withOperand 0, rest) := by
  simp [decode, hb, hf]

/-- The decoder on a byte that starts a two-byte instruction, with its operand. -/
theorem decode_opk {b : Byte} {o : Opcode} (hb : Opcode.ofByte b = some o) (hf : o.format = .opk) (k : Byte)
    (rest : List Byte) : decode (b :: k :: rest) = .ok (o.withOperand k, rest) := by
  simp [decode, hb, hf]

/-- The decoder on a byte that starts a two-byte instruction, with nothing after it. -/
theorem decode_missing {b : Byte} {o : Opcode} (hb : Opcode.ofByte b = some o) (hf : o.format = .opk) :
    decode [b] = .error (.missingOperand b) := by
  simp [decode, hb, hf]

/-- The decoder on a byte that starts nothing. -/
theorem decode_unknown {b : Byte} (hb : Opcode.ofByte b = none) (rest : List Byte) :
    decode (b :: rest) = .error (.unknownOpcode b) := by
  simp [decode, hb]

end Sys2Proof
end

