-- ==== Sys2Proof/Laws/Memory.lean ====
section
/-! SUPPORT. The laws of the memory image: read after write, that every operation keeps the canonical form, and that the
form is canonical. -/

namespace Sys2Proof.Machine

/-! ### What an address reads as -/

theorem Memory.lookup_remove (m : Memory) (n a : Nat) :
    Memory.lookup (Memory.remove m n) a = if a = n then Config.unwrittenByte else Memory.lookup m a := by
  induction m with
  | nil => simp [Memory.remove, Memory.lookup]
  | cons c m ih =>
    obtain ⟨b, v⟩ := c
    by_cases hn : n = b
    · subst hn
      simp only [Memory.remove, if_pos, ih, Memory.lookup]
      split <;> simp_all
    · simp only [Memory.remove, if_neg hn, Memory.lookup, ih]
      by_cases ha : a = b
      · subst ha; simp [Ne.symm hn]
      · simp [ha]

theorem Memory.remove_fresh (m : Memory) (n : Nat) : ∀ c ∈ Memory.remove m n, c.1 ≠ n := by
  induction m with
  | nil => simp [Memory.remove]
  | cons c m ih =>
    obtain ⟨b, w⟩ := c
    simp only [Memory.remove]
    split
    · exact ih
    · rename_i hn
      intro c hc
      rcases List.mem_cons.mp hc with rfl | hc
      · exact Ne.symm hn
      · exact ih c hc

theorem Memory.lookup_insert (m : Memory) (n a : Nat) (v : Byte) (fresh : ∀ c ∈ m, c.1 ≠ n) :
    Memory.lookup (Memory.insert m n v) a = if a = n then v else Memory.lookup m a := by
  induction m with
  | nil => simp [Memory.insert, Memory.lookup]
  | cons c m ih =>
    obtain ⟨b, w⟩ := c
    have hb : b ≠ n := fresh (b, w) (by simp)
    have ih := ih fun c hc => fresh c (by simp [hc])
    simp only [Memory.insert]
    split
    · simp [Memory.lookup]
    · simp only [Memory.lookup, ih]
      by_cases ha : a = b
      · subst ha; simp [hb]
      · simp [ha]

/-- Read after store, at the same address and at any other. -/
theorem Memory.lookup_store (m : Memory) (n a : Nat) (v : Byte) :
    Memory.lookup (Memory.store m n v) a = if a = n then v else Memory.lookup m a := by
  simp only [Memory.store]
  split
  · rename_i hv; rw [Memory.lookup_remove, hv]
  · rw [Memory.lookup_insert _ _ _ _ (Memory.remove_fresh m n), Memory.lookup_remove]
    split <;> rfl

@[simp] theorem Memory.read_write_self (m : Memory) (a v : Byte) : (m.write a v).read a = v := by
  simp [Memory.read, Memory.write, Memory.lookup_store]

theorem Memory.read_write (m : Memory) (a b v : Byte) :
    (m.write a v).read b = if b = a then v else m.read b := by
  simp only [Memory.read, Memory.write, Memory.lookup_store, BitVec.toNat_inj]

@[simp] theorem Memory.read_nil (a : Byte) : Memory.read [] a = 0 := rfl

/-! ### The canonical form is kept -/

@[simp] theorem Memory.wf_nil : Memory.wf [] = true := rfl

theorem Memory.wfFrom_cons (lo a : Nat) (v : Byte) (m : Memory) :
    Memory.wfFrom lo ((a, v) :: m) = true ↔
      lo ≤ a ∧ a < Config.memSize ∧ v ≠ Config.unwrittenByte ∧ Memory.wfFrom (a + 1) m = true := by
  simp [Memory.wfFrom, and_assoc]

theorem Memory.wfFrom_mono {lo lo' : Nat} (h : lo' ≤ lo) {m : Memory} (hm : Memory.wfFrom lo m = true) :
    Memory.wfFrom lo' m = true := by
  cases m with
  | nil => rfl
  | cons c m =>
    rw [Memory.wfFrom_cons] at hm ⊢
    exact ⟨h.trans hm.1, hm.2⟩

theorem Memory.wfFrom_remove {lo n : Nat} {m : Memory} (hm : Memory.wfFrom lo m = true) :
    Memory.wfFrom lo (Memory.remove m n) = true := by
  induction m generalizing lo with
  | nil => rfl
  | cons c m ih =>
    obtain ⟨a, v⟩ := c
    rw [Memory.wfFrom_cons] at hm
    obtain ⟨hlo, ha, hv, hm⟩ := hm
    simp only [Memory.remove]
    split
    · exact ih (Memory.wfFrom_mono (by omega) hm)
    · rw [Memory.wfFrom_cons]; exact ⟨hlo, ha, hv, ih hm⟩

theorem Memory.wfFrom_insert {lo n : Nat} {v : Byte} {m : Memory} (hm : Memory.wfFrom lo m = true) (hlo : lo ≤ n)
    (hn : n < Config.memSize) (hv : v ≠ Config.unwrittenByte) (fresh : ∀ c ∈ m, c.1 ≠ n) :
    Memory.wfFrom lo (Memory.insert m n v) = true := by
  induction m generalizing lo with
  | nil => simp only [Memory.insert, Memory.wfFrom_cons]; exact ⟨hlo, hn, hv, rfl⟩
  | cons c m ih =>
    obtain ⟨a, w⟩ := c
    have hne : a ≠ n := fresh (a, w) (by simp)
    rw [Memory.wfFrom_cons] at hm
    obtain ⟨hla, ha, hw, hm⟩ := hm
    simp only [Memory.insert]
    split
    · rw [Memory.wfFrom_cons, Memory.wfFrom_cons]
      exact ⟨hlo, hn, hv, by omega, ha, hw, hm⟩
    · rw [Memory.wfFrom_cons]
      exact ⟨hla, ha, hw, ih hm (by omega) fun c hc => fresh c (by simp [hc])⟩

/-- A write keeps the canonical form. -/
theorem Memory.wf_write {m : Memory} (h : m.wf = true) (a v : Byte) : (m.write a v).wf = true := by
  unfold Memory.wf at h
  unfold Memory.wf Memory.write Memory.store
  split
  · exact Memory.wfFrom_remove h
  · rename_i hv
    exact Memory.wfFrom_insert (Memory.wfFrom_remove h) (Nat.zero_le _) a.isLt hv (Memory.remove_fresh m _)

/-! ### Loading an image -/

theorem Memory.wfFrom_ofBytes (n : Nat) (bytes : List Byte) (h : n + bytes.length ≤ Config.memSize) :
    Memory.wfFrom n (Memory.ofBytes n bytes) = true := by
  induction bytes generalizing n with
  | nil => rfl
  | cons b rest ih =>
    have ih := ih (n + 1) (by simp at h; omega)
    simp only [Memory.ofBytes]
    split
    · exact Memory.wfFrom_mono (Nat.le_succ n) ih
    · rw [Memory.wfFrom_cons]
      exact ⟨le_refl n, by simp at h; omega, by assumption, ih⟩

/-- Nothing below the origin is touched. -/
theorem Memory.lookup_ofBytes_below (n a : Nat) (bytes : List Byte) (h : a < n) :
    Memory.lookup (Memory.ofBytes n bytes) a = Config.unwrittenByte := by
  induction bytes generalizing n with
  | nil => rfl
  | cons b rest ih =>
    simp only [Memory.ofBytes]
    split
    · exact ih (n + 1) (by omega)
    · rw [Memory.lookup, if_neg (by omega)]; exact ih (n + 1) (by omega)

/-- Byte `j` of the bytes stands at address `n + j`, and past them nothing is written. -/
theorem Memory.lookup_ofBytes (n j : Nat) (bytes : List Byte) :
    Memory.lookup (Memory.ofBytes n bytes) (n + j) = (bytes[j]?).getD Config.unwrittenByte := by
  induction bytes generalizing n j with
  | nil => simp [Memory.ofBytes, Memory.lookup]
  | cons b rest ih =>
    cases j with
    | zero =>
      simp only [Memory.ofBytes, Nat.add_zero]
      split
      · rw [Memory.lookup_ofBytes_below _ _ _ (Nat.lt_succ_self n)]; simp_all
      · simp [Memory.lookup]
    | succ j =>
      have ih := ih (n + 1) j
      rw [show n + (j + 1) = n + 1 + j by omega]
      simp only [Memory.ofBytes]
      split
      · simpa using ih
      · rw [Memory.lookup, if_neg (by omega)]; simpa using ih

/-! ### The form is canonical -/

theorem Memory.lookup_below {lo a : Nat} {m : Memory} (hm : Memory.wfFrom lo m = true) (h : a < lo) :
    Memory.lookup m a = Config.unwrittenByte := by
  induction m generalizing lo with
  | nil => rfl
  | cons c m ih =>
    obtain ⟨b, v⟩ := c
    rw [Memory.wfFrom_cons] at hm
    rw [Memory.lookup, if_neg (by omega)]
    exact ih hm.2.2.2 (by omega)

theorem Memory.lookup_above {lo a : Nat} {m : Memory} (hm : Memory.wfFrom lo m = true) (h : Config.memSize ≤ a) :
    Memory.lookup m a = Config.unwrittenByte := by
  induction m generalizing lo with
  | nil => rfl
  | cons c m ih =>
    obtain ⟨b, v⟩ := c
    rw [Memory.wfFrom_cons] at hm
    rw [Memory.lookup, if_neg (by omega)]
    exact ih hm.2.2.2

end Sys2Proof.Machine
end

