-- ==== Sys2Proof/Laws/State.lean ====
section
/-! SUPPORT. One lemma per field per update of the state, true by rfl. -/

namespace Sys2Proof.Machine

variable (s : State)

/-! ### `zUpdate` -/

@[simp] theorem State.zUpdate_acc : s.zUpdate.acc = s.acc := rfl
@[simp] theorem State.zUpdate_pc : s.zUpdate.pc = s.pc := rfl
@[simp] theorem State.zUpdate_sp : s.zUpdate.sp = s.sp := rfl
@[simp] theorem State.zUpdate_z : s.zUpdate.z = zeroFlag s.acc := rfl
@[simp] theorem State.zUpdate_halted : s.zUpdate.halted = s.halted := rfl
@[simp] theorem State.zUpdate_fault : s.zUpdate.fault = s.fault := rfl
@[simp] theorem State.zUpdate_warn : s.zUpdate.warn = s.warn := rfl
@[simp] theorem State.zUpdate_mem : s.zUpdate.mem = s.mem := rfl
@[simp] theorem State.zUpdate_icount : s.zUpdate.icount = s.icount := rfl
@[simp] theorem State.zUpdate_cycles : s.zUpdate.cycles = s.cycles := rfl
@[simp] theorem State.zUpdate_macc : s.zUpdate.macc = s.macc := rfl
@[simp] theorem State.zUpdate_jt : s.zUpdate.jt = s.jt := rfl
@[simp] theorem State.zUpdate_jnt : s.zUpdate.jnt = s.jnt := rfl
@[simp] theorem State.zUpdate_maxdepth : s.zUpdate.maxdepth = s.maxdepth := rfl

/-! ### `writeAcc` -/

@[simp] theorem State.writeAcc_acc (v : Byte) : (s.writeAcc v).acc = v := rfl
@[simp] theorem State.writeAcc_pc (v : Byte) : (s.writeAcc v).pc = s.pc := rfl
@[simp] theorem State.writeAcc_sp (v : Byte) : (s.writeAcc v).sp = s.sp := rfl
@[simp] theorem State.writeAcc_z (v : Byte) : (s.writeAcc v).z = zeroFlag v := rfl
@[simp] theorem State.writeAcc_halted (v : Byte) : (s.writeAcc v).halted = s.halted := rfl
@[simp] theorem State.writeAcc_fault (v : Byte) : (s.writeAcc v).fault = s.fault := rfl
@[simp] theorem State.writeAcc_warn (v : Byte) : (s.writeAcc v).warn = s.warn := rfl
@[simp] theorem State.writeAcc_mem (v : Byte) : (s.writeAcc v).mem = s.mem := rfl
@[simp] theorem State.writeAcc_icount (v : Byte) : (s.writeAcc v).icount = s.icount := rfl
@[simp] theorem State.writeAcc_cycles (v : Byte) : (s.writeAcc v).cycles = s.cycles := rfl
@[simp] theorem State.writeAcc_macc (v : Byte) : (s.writeAcc v).macc = s.macc := rfl
@[simp] theorem State.writeAcc_jt (v : Byte) : (s.writeAcc v).jt = s.jt := rfl
@[simp] theorem State.writeAcc_jnt (v : Byte) : (s.writeAcc v).jnt = s.jnt := rfl
@[simp] theorem State.writeAcc_maxdepth (v : Byte) : (s.writeAcc v).maxdepth = s.maxdepth := rfl

/-! ### `memWrite` -/

@[simp] theorem State.memWrite_acc (a v : Byte) : (s.memWrite a v).acc = s.acc := rfl
@[simp] theorem State.memWrite_pc (a v : Byte) : (s.memWrite a v).pc = s.pc := rfl
@[simp] theorem State.memWrite_sp (a v : Byte) : (s.memWrite a v).sp = s.sp := rfl
@[simp] theorem State.memWrite_z (a v : Byte) : (s.memWrite a v).z = s.z := rfl
@[simp] theorem State.memWrite_halted (a v : Byte) : (s.memWrite a v).halted = s.halted := rfl
@[simp] theorem State.memWrite_fault (a v : Byte) : (s.memWrite a v).fault = s.fault := rfl
@[simp] theorem State.memWrite_warn (a v : Byte) : (s.memWrite a v).warn = s.warn := rfl
@[simp] theorem State.memWrite_mem (a v : Byte) : (s.memWrite a v).mem = s.mem.write a v := rfl
@[simp] theorem State.memWrite_icount (a v : Byte) : (s.memWrite a v).icount = s.icount := rfl
@[simp] theorem State.memWrite_cycles (a v : Byte) : (s.memWrite a v).cycles = s.cycles := rfl
@[simp] theorem State.memWrite_macc (a v : Byte) : (s.memWrite a v).macc = s.macc + 1 := rfl
@[simp] theorem State.memWrite_jt (a v : Byte) : (s.memWrite a v).jt = s.jt := rfl
@[simp] theorem State.memWrite_jnt (a v : Byte) : (s.memWrite a v).jnt = s.jnt := rfl
@[simp] theorem State.memWrite_maxdepth (a v : Byte) : (s.memWrite a v).maxdepth = s.maxdepth := rfl

/-! ### `memRead` -/

@[simp] theorem State.memRead_acc (a : Byte) : (s.memRead a).2.acc = s.acc := rfl
@[simp] theorem State.memRead_pc (a : Byte) : (s.memRead a).2.pc = s.pc := rfl
@[simp] theorem State.memRead_sp (a : Byte) : (s.memRead a).2.sp = s.sp := rfl
@[simp] theorem State.memRead_z (a : Byte) : (s.memRead a).2.z = s.z := rfl
@[simp] theorem State.memRead_halted (a : Byte) : (s.memRead a).2.halted = s.halted := rfl
@[simp] theorem State.memRead_fault (a : Byte) : (s.memRead a).2.fault = s.fault := rfl
@[simp] theorem State.memRead_warn (a : Byte) : (s.memRead a).2.warn = s.warn := rfl
@[simp] theorem State.memRead_mem (a : Byte) : (s.memRead a).2.mem = s.mem := rfl
@[simp] theorem State.memRead_icount (a : Byte) : (s.memRead a).2.icount = s.icount := rfl
@[simp] theorem State.memRead_cycles (a : Byte) : (s.memRead a).2.cycles = s.cycles := rfl
@[simp] theorem State.memRead_macc (a : Byte) : (s.memRead a).2.macc = s.macc + 1 := rfl
@[simp] theorem State.memRead_jt (a : Byte) : (s.memRead a).2.jt = s.jt := rfl
@[simp] theorem State.memRead_jnt (a : Byte) : (s.memRead a).2.jnt = s.jnt := rfl
@[simp] theorem State.memRead_maxdepth (a : Byte) : (s.memRead a).2.maxdepth = s.maxdepth := rfl

/-! ### `fetchOp` -/

@[simp] theorem State.fetchOp_acc : s.fetchOp.acc = s.acc := rfl
@[simp] theorem State.fetchOp_pc : s.fetchOp.pc = s.pc + 1 := rfl
@[simp] theorem State.fetchOp_sp : s.fetchOp.sp = s.sp := rfl
@[simp] theorem State.fetchOp_z : s.fetchOp.z = s.z := rfl
@[simp] theorem State.fetchOp_halted : s.fetchOp.halted = s.halted := rfl
@[simp] theorem State.fetchOp_fault : s.fetchOp.fault = s.fault := rfl
@[simp] theorem State.fetchOp_warn : s.fetchOp.warn = s.warn := rfl
@[simp] theorem State.fetchOp_mem : s.fetchOp.mem = s.mem := rfl
@[simp] theorem State.fetchOp_icount : s.fetchOp.icount = s.icount := rfl
@[simp] theorem State.fetchOp_cycles : s.fetchOp.cycles = s.cycles := rfl
@[simp] theorem State.fetchOp_macc : s.fetchOp.macc = s.macc + 1 := rfl
@[simp] theorem State.fetchOp_jt : s.fetchOp.jt = s.jt := rfl
@[simp] theorem State.fetchOp_jnt : s.fetchOp.jnt = s.jnt := rfl
@[simp] theorem State.fetchOp_maxdepth : s.fetchOp.maxdepth = s.maxdepth := rfl

/-! ### `fetchByte` -/

@[simp] theorem State.fetchByte_acc : s.fetchByte.acc = s.acc := rfl
@[simp] theorem State.fetchByte_pc : s.fetchByte.pc = s.pc + 1 := rfl
@[simp] theorem State.fetchByte_sp : s.fetchByte.sp = s.sp := rfl
@[simp] theorem State.fetchByte_z : s.fetchByte.z = s.z := rfl
@[simp] theorem State.fetchByte_halted : s.fetchByte.halted = s.halted := rfl
@[simp] theorem State.fetchByte_fault : s.fetchByte.fault = s.fault := rfl
@[simp] theorem State.fetchByte_warn : s.fetchByte.warn = s.warn := rfl
@[simp] theorem State.fetchByte_mem : s.fetchByte.mem = s.mem := rfl
@[simp] theorem State.fetchByte_icount : s.fetchByte.icount = s.icount := rfl
@[simp] theorem State.fetchByte_cycles : s.fetchByte.cycles = s.cycles := rfl
@[simp] theorem State.fetchByte_macc : s.fetchByte.macc = s.macc + 1 := rfl
@[simp] theorem State.fetchByte_jt : s.fetchByte.jt = s.jt := rfl
@[simp] theorem State.fetchByte_jnt : s.fetchByte.jnt = s.jnt := rfl
@[simp] theorem State.fetchByte_maxdepth : s.fetchByte.maxdepth = s.maxdepth := rfl

/-! ### `fetchOpk` -/

@[simp] theorem State.fetchOpk_acc : s.fetchOpk.acc = s.acc := rfl
@[simp] theorem State.fetchOpk_pc : s.fetchOpk.pc = s.pc + 1 + 1 := rfl
@[simp] theorem State.fetchOpk_sp : s.fetchOpk.sp = s.sp := rfl
@[simp] theorem State.fetchOpk_z : s.fetchOpk.z = s.z := rfl
@[simp] theorem State.fetchOpk_halted : s.fetchOpk.halted = s.halted := rfl
@[simp] theorem State.fetchOpk_fault : s.fetchOpk.fault = s.fault := rfl
@[simp] theorem State.fetchOpk_warn : s.fetchOpk.warn = s.warn := rfl
@[simp] theorem State.fetchOpk_mem : s.fetchOpk.mem = s.mem := rfl
@[simp] theorem State.fetchOpk_icount : s.fetchOpk.icount = s.icount := rfl
@[simp] theorem State.fetchOpk_cycles : s.fetchOpk.cycles = s.cycles := rfl
@[simp] theorem State.fetchOpk_macc : s.fetchOpk.macc = s.macc + 1 + 1 := rfl
@[simp] theorem State.fetchOpk_jt : s.fetchOpk.jt = s.jt := rfl
@[simp] theorem State.fetchOpk_jnt : s.fetchOpk.jnt = s.jnt := rfl
@[simp] theorem State.fetchOpk_maxdepth : s.fetchOpk.maxdepth = s.maxdepth := rfl

/-! ### `raise` -/

@[simp] theorem State.raise_acc (kind : FaultKind) (pc0 : PcWord) (info : Byte) : (s.raise kind pc0 info).acc = s.acc := rfl
@[simp] theorem State.raise_pc (kind : FaultKind) (pc0 : PcWord) (info : Byte) : (s.raise kind pc0 info).pc = s.pc := rfl
@[simp] theorem State.raise_sp (kind : FaultKind) (pc0 : PcWord) (info : Byte) : (s.raise kind pc0 info).sp = s.sp := rfl
@[simp] theorem State.raise_z (kind : FaultKind) (pc0 : PcWord) (info : Byte) : (s.raise kind pc0 info).z = s.z := rfl
@[simp] theorem State.raise_halted (kind : FaultKind) (pc0 : PcWord) (info : Byte) : (s.raise kind pc0 info).halted = true := rfl
@[simp] theorem State.raise_fault (kind : FaultKind) (pc0 : PcWord) (info : Byte) : (s.raise kind pc0 info).fault = some ⟨kind, pc0, info⟩ := rfl
@[simp] theorem State.raise_warn (kind : FaultKind) (pc0 : PcWord) (info : Byte) : (s.raise kind pc0 info).warn = s.warn := rfl
@[simp] theorem State.raise_mem (kind : FaultKind) (pc0 : PcWord) (info : Byte) : (s.raise kind pc0 info).mem = s.mem := rfl
@[simp] theorem State.raise_icount (kind : FaultKind) (pc0 : PcWord) (info : Byte) : (s.raise kind pc0 info).icount = s.icount := rfl
@[simp] theorem State.raise_cycles (kind : FaultKind) (pc0 : PcWord) (info : Byte) : (s.raise kind pc0 info).cycles = s.cycles := rfl
@[simp] theorem State.raise_macc (kind : FaultKind) (pc0 : PcWord) (info : Byte) : (s.raise kind pc0 info).macc = s.macc := rfl
@[simp] theorem State.raise_jt (kind : FaultKind) (pc0 : PcWord) (info : Byte) : (s.raise kind pc0 info).jt = s.jt := rfl
@[simp] theorem State.raise_jnt (kind : FaultKind) (pc0 : PcWord) (info : Byte) : (s.raise kind pc0 info).jnt = s.jnt := rfl
@[simp] theorem State.raise_maxdepth (kind : FaultKind) (pc0 : PcWord) (info : Byte) : (s.raise kind pc0 info).maxdepth = s.maxdepth := rfl

/-! ### `complete` -/

@[simp] theorem State.complete_acc : s.complete.acc = s.acc := rfl
@[simp] theorem State.complete_pc : s.complete.pc = s.pc := rfl
@[simp] theorem State.complete_sp : s.complete.sp = s.sp := rfl
@[simp] theorem State.complete_z : s.complete.z = s.z := rfl
@[simp] theorem State.complete_halted : s.complete.halted = s.halted := rfl
@[simp] theorem State.complete_fault : s.complete.fault = s.fault := rfl
@[simp] theorem State.complete_warn : s.complete.warn = s.warn := rfl
@[simp] theorem State.complete_mem : s.complete.mem = s.mem := rfl
@[simp] theorem State.complete_icount : s.complete.icount = s.icount + 1 := rfl
@[simp] theorem State.complete_cycles : s.complete.cycles = s.cycles + 1 := rfl
@[simp] theorem State.complete_macc : s.complete.macc = s.macc := rfl
@[simp] theorem State.complete_jt : s.complete.jt = s.jt := rfl
@[simp] theorem State.complete_jnt : s.complete.jnt = s.jnt := rfl
@[simp] theorem State.complete_maxdepth : s.complete.maxdepth = s.maxdepth := rfl

/-! ### `takeJump` -/

@[simp] theorem State.takeJump_acc (k : Byte) : (s.takeJump k).acc = s.acc := rfl
@[simp] theorem State.takeJump_pc (k : Byte) : (s.takeJump k).pc = zext9 k := rfl
@[simp] theorem State.takeJump_sp (k : Byte) : (s.takeJump k).sp = s.sp := rfl
@[simp] theorem State.takeJump_z (k : Byte) : (s.takeJump k).z = s.z := rfl
@[simp] theorem State.takeJump_halted (k : Byte) : (s.takeJump k).halted = s.halted := rfl
@[simp] theorem State.takeJump_fault (k : Byte) : (s.takeJump k).fault = s.fault := rfl
@[simp] theorem State.takeJump_warn (k : Byte) : (s.takeJump k).warn = s.warn := rfl
@[simp] theorem State.takeJump_mem (k : Byte) : (s.takeJump k).mem = s.mem := rfl
@[simp] theorem State.takeJump_icount (k : Byte) : (s.takeJump k).icount = s.icount := rfl
@[simp] theorem State.takeJump_cycles (k : Byte) : (s.takeJump k).cycles = s.cycles := rfl
@[simp] theorem State.takeJump_macc (k : Byte) : (s.takeJump k).macc = s.macc := rfl
@[simp] theorem State.takeJump_jt (k : Byte) : (s.takeJump k).jt = s.jt + 1 := rfl
@[simp] theorem State.takeJump_jnt (k : Byte) : (s.takeJump k).jnt = s.jnt := rfl
@[simp] theorem State.takeJump_maxdepth (k : Byte) : (s.takeJump k).maxdepth = s.maxdepth := rfl

/-! ### `skipJump` -/

@[simp] theorem State.skipJump_acc : s.skipJump.acc = s.acc := rfl
@[simp] theorem State.skipJump_pc : s.skipJump.pc = s.pc := rfl
@[simp] theorem State.skipJump_sp : s.skipJump.sp = s.sp := rfl
@[simp] theorem State.skipJump_z : s.skipJump.z = s.z := rfl
@[simp] theorem State.skipJump_halted : s.skipJump.halted = s.halted := rfl
@[simp] theorem State.skipJump_fault : s.skipJump.fault = s.fault := rfl
@[simp] theorem State.skipJump_warn : s.skipJump.warn = s.warn := rfl
@[simp] theorem State.skipJump_mem : s.skipJump.mem = s.mem := rfl
@[simp] theorem State.skipJump_icount : s.skipJump.icount = s.icount := rfl
@[simp] theorem State.skipJump_cycles : s.skipJump.cycles = s.cycles := rfl
@[simp] theorem State.skipJump_macc : s.skipJump.macc = s.macc := rfl
@[simp] theorem State.skipJump_jt : s.skipJump.jt = s.jt := rfl
@[simp] theorem State.skipJump_jnt : s.skipJump.jnt = s.jnt + 1 := rfl
@[simp] theorem State.skipJump_maxdepth : s.skipJump.maxdepth = s.maxdepth := rfl

/-! ### `warnOperand` -/

@[simp] theorem State.warnOperand_acc (pc0 : PcWord) (k : Byte) : (s.warnOperand pc0 k).acc = s.acc := rfl
@[simp] theorem State.warnOperand_pc (pc0 : PcWord) (k : Byte) : (s.warnOperand pc0 k).pc = s.pc := rfl
@[simp] theorem State.warnOperand_sp (pc0 : PcWord) (k : Byte) : (s.warnOperand pc0 k).sp = s.sp := rfl
@[simp] theorem State.warnOperand_z (pc0 : PcWord) (k : Byte) : (s.warnOperand pc0 k).z = s.z := rfl
@[simp] theorem State.warnOperand_halted (pc0 : PcWord) (k : Byte) : (s.warnOperand pc0 k).halted = s.halted := rfl
@[simp] theorem State.warnOperand_fault (pc0 : PcWord) (k : Byte) : (s.warnOperand pc0 k).fault = s.fault := rfl
@[simp] theorem State.warnOperand_warn (pc0 : PcWord) (k : Byte) : (s.warnOperand pc0 k).warn = s.warn ++ [⟨.outOfRangeOperand, pc0, k⟩] := rfl
@[simp] theorem State.warnOperand_mem (pc0 : PcWord) (k : Byte) : (s.warnOperand pc0 k).mem = s.mem := rfl
@[simp] theorem State.warnOperand_icount (pc0 : PcWord) (k : Byte) : (s.warnOperand pc0 k).icount = s.icount := rfl
@[simp] theorem State.warnOperand_cycles (pc0 : PcWord) (k : Byte) : (s.warnOperand pc0 k).cycles = s.cycles := rfl
@[simp] theorem State.warnOperand_macc (pc0 : PcWord) (k : Byte) : (s.warnOperand pc0 k).macc = s.macc := rfl
@[simp] theorem State.warnOperand_jt (pc0 : PcWord) (k : Byte) : (s.warnOperand pc0 k).jt = s.jt := rfl
@[simp] theorem State.warnOperand_jnt (pc0 : PcWord) (k : Byte) : (s.warnOperand pc0 k).jnt = s.jnt := rfl
@[simp] theorem State.warnOperand_maxdepth (pc0 : PcWord) (k : Byte) : (s.warnOperand pc0 k).maxdepth = s.maxdepth := rfl

/-! ### `applyReset` -/

@[simp] theorem State.applyReset_acc (a : Byte) (z : Bool) : (s.applyReset a z).acc = a := rfl
@[simp] theorem State.applyReset_pc (a : Byte) (z : Bool) : (s.applyReset a z).pc = 0 := rfl
@[simp] theorem State.applyReset_sp (a : Byte) (z : Bool) : (s.applyReset a z).sp = 255 := rfl
@[simp] theorem State.applyReset_z (a : Byte) (z : Bool) : (s.applyReset a z).z = z := rfl
@[simp] theorem State.applyReset_halted (a : Byte) (z : Bool) : (s.applyReset a z).halted = false := rfl
@[simp] theorem State.applyReset_fault (a : Byte) (z : Bool) : (s.applyReset a z).fault = none := rfl
@[simp] theorem State.applyReset_warn (a : Byte) (z : Bool) : (s.applyReset a z).warn = [] := rfl
@[simp] theorem State.applyReset_mem (a : Byte) (z : Bool) : (s.applyReset a z).mem = s.mem := rfl
@[simp] theorem State.applyReset_icount (a : Byte) (z : Bool) : (s.applyReset a z).icount = 0 := rfl
@[simp] theorem State.applyReset_cycles (a : Byte) (z : Bool) : (s.applyReset a z).cycles = 0 := rfl
@[simp] theorem State.applyReset_macc (a : Byte) (z : Bool) : (s.applyReset a z).macc = 0 := rfl
@[simp] theorem State.applyReset_jt (a : Byte) (z : Bool) : (s.applyReset a z).jt = 0 := rfl
@[simp] theorem State.applyReset_jnt (a : Byte) (z : Bool) : (s.applyReset a z).jnt = 0 := rfl
@[simp] theorem State.applyReset_maxdepth (a : Byte) (z : Bool) : (s.applyReset a z).maxdepth = 0 := rfl

@[simp] theorem State.memRead_value (a : Byte) : (s.memRead a).1 = s.mem.read a := rfl

end Sys2Proof.Machine
end

