-- ==== Sys2Proof/Laws/Ops.lean ====
section
/-! SUPPORT. What each shared operation can do, said once: the arithmetic, the operands on this hardware's memory size,
the stack, the end of a step. -/

namespace Sys2Proof.Machine

/-! ### Arithmetic and flag -/

theorem aluAdd_eq (a b : Byte) : aluAdd a b = a + b := by
  apply BitVec.eq_of_toNat_eq; simp [aluAdd]

theorem aluMul_eq (a b : Byte) : aluMul a b = a * b := by
  apply BitVec.eq_of_toNat_eq; simp [aluMul]

theorem aluAdd_toNat (a b : Byte) : (aluAdd a b).toNat = (a.toNat + b.toNat) % 256 := by simp [aluAdd]

theorem aluMul_toNat (a b : Byte) : (aluMul a b).toNat = (a.toNat * b.toNat) % 256 := by simp [aluMul]

theorem aluSub_toNat (a b : Byte) :
    (aluSub a b).toNat = if b.toNat ≤ a.toNat then a.toNat - b.toNat else a.toNat + 256 - b.toNat := by
  have ha := a.isLt
  have hb := b.isLt
  simp only [aluSub, BitVec.toNat_ofInt]
  split <;> omega

theorem aluSub_eq (a b : Byte) : aluSub a b = a - b := by
  apply BitVec.eq_of_toNat_eq
  have ha := a.isLt
  have hb := b.isLt
  rw [aluSub_toNat, BitVec.toNat_sub]
  split <;> omega

@[simp] theorem zeroFlag_iff (r : Byte) : zeroFlag r = true ↔ r = 0 := by simp [zeroFlag]

/-! ### The program counter -/

theorem pcByte_toNat (pc : PcWord) : (pcByte pc).toNat = pc.toNat % 256 := by simp [pcByte]

@[simp] theorem zext9_toNat (k : Byte) : (zext9 k).toNat = k.toNat := by
  have := k.isLt
  simp only [zext9, BitVec.toNat_setWidth]; omega

theorem pcByte_zext9 (k : Byte) : pcByte (zext9 k) = k := by
  have := k.isLt
  apply BitVec.eq_of_toNat_eq; rw [pcByte_toNat, zext9_toNat]; omega

/-- Two advances by one are an advance by two. -/
theorem pc_add_two (pc : PcWord) : pc + 1 + 1 = pc + 2 := by rw [BitVec.add_assoc]; rfl

/-! ### Operands: on this hardware every operand is in range -/

@[simp] theorem operandInRange_memSize (k : Byte) : operandInRange Config.memSize k = true :=
  decide_eq_true k.isLt

@[simp] theorem State.loadOperand_memSize (pc0 : PcWord) (k : Byte) (s : State) :
    s.loadOperand Config.memSize pc0 k = s.memRead k := by simp [State.loadOperand]

@[simp] theorem State.storeOperand_memSize (pc0 : PcWord) (k v : Byte) (s : State) :
    s.storeOperand Config.memSize pc0 k v = s.memWrite k v := by simp [State.storeOperand]

@[simp] theorem State.jumpOperand_memSize (pc0 : PcWord) (k : Byte) (s : State) :
    s.jumpOperand Config.memSize pc0 k = s.takeJump k := by simp [State.jumpOperand]

@[simp] theorem State.callOperand_memSize (pc0 : PcWord) (k : Byte) (s : State) :
    s.callOperand Config.memSize pc0 k = (s.push (pcByte s.pc)).map (State.takeJump k) := by
  simp [State.callOperand]

/-! ### The stack -/

theorem State.pushWith_empty {pre : Bool} {v : Byte} {s : State} (h : s.sp = 0) :
    s.pushWith pre v = .error .stackOverflow := by simp [State.pushWith, h]

theorem State.popWith_empty {pre : Bool} {s : State} (h : s.sp = 255) :
    s.popWith pre = .error .stackUnderflow := by simp [State.popWith, h]

/-- A push with room: one cell written, the pointer one down, the peak depth recorded. -/
theorem State.pushWith_room {pre : Bool} {v : Byte} {s : State} (h : s.sp ≠ 0) :
    s.pushWith pre v = .ok { s with
      mem := s.mem.write (pushCell pre s.sp) v
      macc := s.macc + 1
      sp := s.sp - 1
      maxdepth := max s.maxdepth (255 - (s.sp - 1).toNat) } := by
  rw [State.pushWith, if_neg h]; rfl

/-- A pop with an entry: one cell read, the pointer one up. -/
theorem State.popWith_entry {pre : Bool} {s : State} (h : s.sp ≠ 255) :
    s.popWith pre = .ok (s.mem.read (popCell pre s.sp), { s with macc := s.macc + 1, sp := s.sp + 1 }) := by
  rw [State.popWith, if_neg h]; rfl

@[simp] theorem pushCell_false (sp : Byte) : pushCell false sp = sp := rfl

@[simp] theorem popCell_false (sp : Byte) : popCell false sp = sp + 1 := rfl

/-- A pointer that is not 0 goes down by one without wrap (10_state.md R13). -/
theorem sp_pred {sp : Byte} (h : sp ≠ 0) : (sp - 1).toNat = sp.toNat - 1 := by
  have hne : sp.toNat ≠ 0 := fun e => h (by apply BitVec.eq_of_toNat_eq; simpa using e)
  have := sp.isLt
  simp [BitVec.toNat_sub]; omega

/-- A pointer that is not 255 goes up by one without wrap (R13). -/
theorem sp_succ {sp : Byte} (h : sp ≠ 255) : (sp + 1).toNat = sp.toNat + 1 := by
  have hne : sp.toNat ≠ 255 := fun e => h (by apply BitVec.eq_of_toNat_eq; simpa using e)
  have := sp.isLt
  simp [BitVec.toNat_add]; omega

/-! ### The end of a step -/

@[simp] theorem retire_ok (pc0 : PcWord) (f s : State) : retire pc0 f (.ok s) = .next s.complete := rfl

@[simp] theorem retire_error (pc0 : PcWord) (f : State) (kind : FaultKind) :
    retire pc0 f (.error kind) = .next (f.raise kind pc0 0) := rfl

end Sys2Proof.Machine
end

