-- ==== Sys2Proof/Laws/Exec.lean ====
section
/-! SUPPORT. What each meaning answers, once per instruction, in terms of the shared updates. -/

namespace Sys2Proof.Machine

variable (s : State)

theorem exec_nop : exec .nop s = .next s.fetchOp.complete := rfl

theorem exec_store (k : Byte) : exec (.store k) s = .next (s.fetchOpk.memWrite k s.acc).complete := by
  simp [exec, execStore]

theorem exec_loadi (k : Byte) : exec (.loadi k) s = .next (s.fetchOpk.writeAcc k).complete := rfl

theorem exec_loadm (k : Byte) :
    exec (.loadm k) s = .next ((s.fetchOpk.memRead k).2.writeAcc (s.mem.read k)).complete := by
  simp [exec, execLoadm]

theorem exec_add (k : Byte) :
    exec (.add k) s = .next ((s.fetchOpk.memRead k).2.writeAcc (aluAdd s.acc (s.mem.read k))).complete := by
  simp [exec, execAdd]

theorem exec_sub (k : Byte) :
    exec (.sub k) s = .next ((s.fetchOpk.memRead k).2.writeAcc (aluSub s.acc (s.mem.read k))).complete := by
  simp [exec, execSub]

theorem exec_mul (k : Byte) :
    exec (.mul k) s = .next ((s.fetchOpk.memRead k).2.writeAcc (aluMul s.acc (s.mem.read k))).complete := by
  simp [exec, execMul]

theorem exec_jmp (k : Byte) : exec (.jmp k) s = .next (s.fetchOpk.takeJump k).complete := by
  simp [exec, execJmp]

theorem exec_jmpz (k : Byte) :
    exec (.jmpz k) s = .next (if s.z then s.fetchOpk.takeJump k else s.fetchOpk.skipJump).complete := by
  simp [exec, execJmpz]

theorem exec_halt : exec .halt s = .next { s.fetchOp.complete with halted := true } := rfl

variable {s}

theorem exec_push (h : s.sp ≠ 0) :
    exec .push s = .next { s.fetchOp.complete with
      mem := s.mem.write (pushCell Config.stackPreDecrement s.sp) s.acc
      macc := s.macc + 1 + 1
      sp := s.sp - 1
      maxdepth := max s.maxdepth (255 - (s.sp - 1).toNat) } := by
  have h' : s.fetchOp.sp ≠ 0 := h
  simp only [exec, execPush, State.push, State.pushWith_room h']
  rfl

theorem exec_push_full (h : s.sp = 0) : exec .push s = .next (s.fetchOp.raise .stackOverflow s.pc 0) := by
  have h' : s.fetchOp.sp = 0 := h
  simp only [exec, execPush, State.push, State.pushWith_empty h', retire_error]

theorem exec_pop (h : s.sp ≠ 255) :
    exec .pop s = .next { s.fetchOp.complete with
      acc := s.mem.read (popCell Config.stackPreDecrement s.sp)
      z := zeroFlag (s.mem.read (popCell Config.stackPreDecrement s.sp))
      macc := s.macc + 1 + 1
      sp := s.sp + 1 } := by
  have h' : s.fetchOp.sp ≠ 255 := h
  simp only [exec, execPop, State.pop, State.popWith_entry h']
  rfl

theorem exec_pop_empty (h : s.sp = 255) : exec .pop s = .next (s.fetchOp.raise .stackUnderflow s.pc 0) := by
  have h' : s.fetchOp.sp = 255 := h
  simp only [exec, execPop, State.pop, State.popWith_empty h', Except.map, retire_error]

theorem exec_call (h : s.sp ≠ 0) (k : Byte) :
    exec (.call k) s = .next { (s.fetchOpk.takeJump k).complete with
      mem := s.mem.write (pushCell Config.stackPreDecrement s.sp) (pcByte (s.pc + 1 + 1))
      macc := s.macc + 1 + 1 + 1
      sp := s.sp - 1
      maxdepth := max s.maxdepth (255 - (s.sp - 1).toNat) } := by
  have h' : s.fetchOpk.sp ≠ 0 := h
  simp only [exec, execCall, State.callOperand_memSize, State.push, State.pushWith_room h']
  rfl

theorem exec_call_full (h : s.sp = 0) (k : Byte) :
    exec (.call k) s = .next (s.fetchOpk.raise .stackOverflow s.pc 0) := by
  have h' : s.fetchOpk.sp = 0 := h
  simp only [exec, execCall, State.callOperand_memSize, State.push, State.pushWith_empty h', Except.map, retire_error]

theorem exec_ret (h : s.sp ≠ 255) :
    exec .ret s = .next { s.fetchOp.complete with
      pc := zext9 (s.mem.read (popCell Config.stackPreDecrement s.sp))
      macc := s.macc + 1 + 1
      sp := s.sp + 1 } := by
  have h' : s.fetchOp.sp ≠ 255 := h
  simp only [exec, execRet, State.pop, State.popWith_entry h']
  rfl

theorem exec_ret_empty (h : s.sp = 255) : exec .ret s = .next (s.fetchOp.raise .stackUnderflow s.pc 0) := by
  have h' : s.fetchOp.sp = 255 := h
  simp only [exec, execRet, State.pop, State.popWith_empty h', Except.map, retire_error]

/-- Where the stack check of an instruction fires, its meaning is the fetch and the fault, and nothing else. -/
theorem exec_stackFault {i : Instr} (h : stackFaults i s = true) :
    ∃ f kind, (f = s.fetchOp ∨ f = s.fetchOpk) ∧ exec i s = .next (f.raise kind s.pc 0) := by
  cases i <;> simp only [stackFaults, decide_eq_true_eq, Bool.false_eq_true] at h
  · exact ⟨_, _, .inl rfl, exec_push_full h⟩
  · exact ⟨_, _, .inl rfl, exec_pop_empty h⟩
  · exact ⟨_, _, .inr rfl, exec_call_full h _⟩
  · exact ⟨_, _, .inl rfl, exec_ret_empty h⟩

/-- Where it does not fire, a push has room and a pop has an entry. -/
theorem stack_ready {i : Instr} (h : stackFaults i s = false) :
    ((i = .push ∨ ∃ k, i = .call k) → s.sp ≠ 0) ∧ (i = .pop ∨ i = .ret → s.sp ≠ 255) := by
  cases i <;> simp_all [stackFaults]

end Sys2Proof.Machine
end

