-- ==== Sys2Proof/Laws/PerInstr.lean ====
section
/-! SUPPORT. The one family of statements made per instruction: an instruction is well formed and its encoding has the
length its opcode decides (30_encoding.md R53, R61). -/

namespace Sys2Proof.Laws

/-- The instruction is well formed, and its encoding is as long as its opcode's format says. -/
def EncodedSize.Statement (i : Instr) : Prop := i.wellFormed = true ∧ (encode i).length = i.size

theorem EncodedSize.nop : EncodedSize.Statement .nop := ⟨rfl, rfl⟩
theorem EncodedSize.store (k : Byte) : EncodedSize.Statement (.store k) := ⟨decide_eq_true k.isLt, rfl⟩
theorem EncodedSize.add (k : Byte) : EncodedSize.Statement (.add k) := ⟨decide_eq_true k.isLt, rfl⟩
theorem EncodedSize.sub (k : Byte) : EncodedSize.Statement (.sub k) := ⟨decide_eq_true k.isLt, rfl⟩
theorem EncodedSize.loadi (k : Byte) : EncodedSize.Statement (.loadi k) := ⟨decide_eq_true k.isLt, rfl⟩
theorem EncodedSize.loadm (k : Byte) : EncodedSize.Statement (.loadm k) := ⟨decide_eq_true k.isLt, rfl⟩
theorem EncodedSize.jmp (k : Byte) : EncodedSize.Statement (.jmp k) := ⟨decide_eq_true k.isLt, rfl⟩
theorem EncodedSize.halt : EncodedSize.Statement .halt := ⟨rfl, rfl⟩
theorem EncodedSize.push : EncodedSize.Statement .push := ⟨rfl, rfl⟩
theorem EncodedSize.pop : EncodedSize.Statement .pop := ⟨rfl, rfl⟩
theorem EncodedSize.call (k : Byte) : EncodedSize.Statement (.call k) := ⟨decide_eq_true k.isLt, rfl⟩
theorem EncodedSize.ret : EncodedSize.Statement .ret := ⟨rfl, rfl⟩
theorem EncodedSize.jmpz (k : Byte) : EncodedSize.Statement (.jmpz k) := ⟨decide_eq_true k.isLt, rfl⟩
theorem EncodedSize.mul (k : Byte) : EncodedSize.Statement (.mul k) := ⟨decide_eq_true k.isLt, rfl⟩

end Sys2Proof.Laws
end

