-- ==== Sys2Proof/Laws/Step.lean ====
section
/-! SUPPORT. Every way a fetch can end, and what a step is in each of them. -/

namespace Sys2Proof.Machine

variable {s : State}

theorem window_low (h : s.pc.toNat ≤ 254) :
    window s = [s.mem.read (pcByte s.pc), s.mem.read (pcByte (s.pc + 1))] := if_pos h

theorem window_top (h : s.pc.toNat = 255) : window s = [s.mem.read (pcByte s.pc)] := by
  simp [window, h]

theorem window_out (h : 255 < s.pc.toNat) : window s = [] := by
  rw [window, if_neg (by omega), if_neg (by omega)]

/-- Where a byte can be fetched, it heads the window. -/
theorem window_head (h : s.pc.toNat ≤ 255) : ∃ rest, window s = s.mem.read (pcByte s.pc) :: rest := by
  by_cases h' : s.pc.toNat ≤ 254
  · exact ⟨_, window_low h'⟩
  · exact ⟨_, window_top (by omega)⟩

theorem fetch_op {o : Opcode} (h : s.pc.toNat ≤ 255) (ho : Opcode.ofByte (s.mem.read (pcByte s.pc)) = some o)
    (hf : o.format = .op) : fetch s = .ok (o.withOperand 0) := by
  obtain ⟨rest, hw⟩ := window_head h
  simp only [fetch, hw, decode_op ho hf]

theorem fetch_opk {o : Opcode} (h : s.pc.toNat ≤ 254) (ho : Opcode.ofByte (s.mem.read (pcByte s.pc)) = some o)
    (hf : o.format = .opk) : fetch s = .ok (o.withOperand (s.mem.read (pcByte (s.pc + 1)))) := by
  simp only [fetch, window_low h, decode_opk ho hf]

theorem fetch_out (h : 255 < s.pc.toNat) : fetch s = .error (s.raise .outOfBoundsFetch s.pc 0) := by
  simp only [fetch, window_out h, decode]

theorem fetch_unknown (h : s.pc.toNat ≤ 255) (ho : Opcode.ofByte (s.mem.read (pcByte s.pc)) = none) :
    fetch s = .error (s.fetchByte.raise .unknownOpcode s.pc (s.mem.read (pcByte s.pc))) := by
  obtain ⟨rest, hw⟩ := window_head h
  simp only [fetch, hw, decode_unknown ho]

theorem fetch_missing {o : Opcode} (h : s.pc.toNat = 255) (ho : Opcode.ofByte (s.mem.read (pcByte s.pc)) = some o)
    (hf : o.format = .opk) : fetch s = .error (s.fetchByte.raise .outOfBoundsFetch s.pc 0) := by
  simp only [fetch, window_top h, decode_missing ho hf]

/-- The five ways a fetch ends. -/
theorem fetch_cases (s : State) :
    (255 < s.pc.toNat ∧ fetch s = .error (s.raise .outOfBoundsFetch s.pc 0)) ∨
    (s.pc.toNat ≤ 255 ∧ Opcode.ofByte (s.mem.read (pcByte s.pc)) = none ∧
      fetch s = .error (s.fetchByte.raise .unknownOpcode s.pc (s.mem.read (pcByte s.pc)))) ∨
    (∃ o, s.pc.toNat = 255 ∧ Opcode.ofByte (s.mem.read (pcByte s.pc)) = some o ∧ o.format = .opk ∧
      fetch s = .error (s.fetchByte.raise .outOfBoundsFetch s.pc 0)) ∨
    (∃ o, s.pc.toNat ≤ 255 ∧ Opcode.ofByte (s.mem.read (pcByte s.pc)) = some o ∧ o.format = .op ∧
      fetch s = .ok (o.withOperand 0)) ∨
    (∃ o, s.pc.toNat ≤ 254 ∧ Opcode.ofByte (s.mem.read (pcByte s.pc)) = some o ∧ o.format = .opk ∧
      fetch s = .ok (o.withOperand (s.mem.read (pcByte (s.pc + 1))))) := by
  by_cases hout : 255 < s.pc.toNat
  · exact .inl ⟨hout, fetch_out hout⟩
  have hle : s.pc.toNat ≤ 255 := by omega
  cases ho : Opcode.ofByte (s.mem.read (pcByte s.pc)) with
  | none => exact .inr (.inl ⟨hle, rfl, fetch_unknown hle ho⟩)
  | some o =>
    cases hf : o.format with
    | op => exact .inr (.inr (.inr (.inl ⟨o, hle, rfl, hf, fetch_op hle ho hf⟩)))
    | opk =>
      by_cases htop : s.pc.toNat = 255
      · exact .inr (.inr (.inl ⟨o, htop, rfl, hf, fetch_missing htop ho hf⟩))
      · have hlow : s.pc.toNat ≤ 254 := by omega
        exact .inr (.inr (.inr (.inr ⟨o, hlow, rfl, hf, fetch_opk hlow ho hf⟩)))

/-- An instruction that was fetched fits below the top of memory. -/
theorem fetch_fits {i : Instr} (h : fetch s = .ok i) : s.pc.toNat + i.size ≤ 256 := by
  rcases fetch_cases s with ⟨_, h'⟩ | ⟨_, _, h'⟩ | ⟨_, _, _, _, h'⟩ | ⟨o, hp, _, hf, h'⟩ | ⟨o, hp, _, hf, h'⟩ <;>
    rw [h] at h' <;> cases h'
  · simp [Instr.size, hf, Format.size]; omega
  · simp [Instr.size, hf, Format.size]; omega

theorem step_halted (h : s.halted = true) : step s = .fault .halted := by simp [step, h]

theorem step_exec {i : Instr} (h : s.halted = false) (hf : fetch s = .ok i) : step s = exec i s := by
  simp [step, h, hf]

theorem step_fault {t : State} (h : s.halted = false) (hf : fetch s = .error t) : step s = .next t := by
  simp [step, h, hf]

/-- The end of a step is always a next state. -/
theorem retire_answers (pc0 : PcWord) (f : State) (e : Except FaultKind State) : ∃ t, retire pc0 f e = .next t := by
  cases e <;> exact ⟨_, rfl⟩

/-- Every meaning answers a next state. -/
theorem exec_answers (i : Instr) (s : State) : ∃ t, exec i s = .next t := by
  cases i <;> first | exact retire_answers _ _ _ | exact ⟨_, rfl⟩

/-- All a step that answers a next state can be: an instruction's meaning, or the fault of a fetch that read nothing or
read one byte. -/
theorem step_cases {s t : State} (h : step s = .next t) :
    s.halted = false ∧
    ((∃ i, fetch s = .ok i ∧ exec i s = .next t) ∨
      (255 < s.pc.toNat ∧ t = s.raise .outOfBoundsFetch s.pc 0) ∨
      ∃ kind info, s.pc.toNat ≤ 255 ∧ (info = 0 ∨ kind = .unknownOpcode) ∧
        t = s.fetchByte.raise kind s.pc info) := by
  cases hh : s.halted with
  | true => rw [step_halted hh] at h; cases h
  | false =>
    refine ⟨rfl, ?_⟩
    rcases fetch_cases s with ⟨hp, hf⟩ | ⟨hp, _, hf⟩ | ⟨_, hp, _, _, hf⟩ | ⟨_, _, _, _, hf⟩ | ⟨_, _, _, _, hf⟩
    · rw [step_fault hh hf] at h; cases h; exact .inr (.inl ⟨hp, rfl⟩)
    · rw [step_fault hh hf] at h; cases h; exact .inr (.inr ⟨_, _, hp, .inr rfl, rfl⟩)
    · rw [step_fault hh hf] at h; cases h; exact .inr (.inr ⟨_, _, by omega, .inl rfl, rfl⟩)
    · rw [step_exec hh hf] at h; exact .inl ⟨_, hf, h⟩
    · rw [step_exec hh hf] at h; exact .inl ⟨_, hf, h⟩

end Sys2Proof.Machine
end

