-- ==== Sys2Proof/Laws/Run.lean ====
section
/-! SUPPORT. Runs in parts, and the one induction over a run. -/

namespace Sys2Proof.Machine

/-- A run stops where a step does not answer a next state, whatever the budget. -/
theorem runFor_stays {s : State} (h : ∀ t, step s ≠ .next t) (n : Nat) : runFor n s = s := by
  cases n with
  | zero => rfl
  | succ n =>
    simp only [runFor]
    split
    · exact absurd ‹_› (h _)
    · rfl
    · rfl

/-- A run of `m + n` steps is a run of `n` steps from where `m` steps end. -/
theorem runFor_add (m n : Nat) (s : State) : runFor (m + n) s = runFor n (runFor m s) := by
  induction m generalizing s with
  | zero => rw [Nat.zero_add]; rfl
  | succ m ih =>
    rw [show m + 1 + n = m + n + 1 by omega]
    cases hst : step s with
    | next t => simp only [runFor, hst, ih]
    | fault f => simp only [runFor, hst]; exact (runFor_stays (by simp [hst]) n).symm
    | refused r => simp only [runFor, hst]; exact (runFor_stays (by simp [hst]) n).symm

/-- What a step keeps, a run keeps. -/
theorem runFor_keeps {P : State → Prop} (keeps : ∀ s t, P s → step s = .next t → P t) (n : Nat) {s : State} (h : P s) :
    P (runFor n s) := by
  induction n generalizing s with
  | zero => exact h
  | succ n ih =>
    simp only [runFor]
    split
    · exact ih (keeps _ _ h ‹_›)
    · exact h
    · exact h

end Sys2Proof.Machine
end

