-- ==== Sys2Proof/Tests/Slice0.lean ====
section
/-! SUPPORT. Tests of the model on values from the spec (95_test_vectors.md unless a comment says otherwise), and for each
statement with hypotheses a named witness that meets them. -/

namespace Sys2Proof.Tests

open Machine

/-! ### Helpers -/

/-- The next state of an outcome. -/
def nextOf : Host.Outcome State Fault Refusal → Option State
  | .next t => some t
  | .fault _ => none
  | .refused _ => none

/-- Reset with both open parameters 0 and the given memory, as the conventions of 95_test_vectors.md have it. -/
def start (mem : Memory) : State := State.resetWith 0 false mem

/-- What a test looks at: `ACC`, `Z`, `PC`, `SP`. -/
def regs (t : State) : Byte × Bool × PcWord × Byte := (t.acc, t.z, t.pc, t.sp)

/-! ### WellFormed: the check that can fail refuses an image of 257 bytes (U12); no operand byte is refused (R54) -/

theorem test_image_too_long_refused : imageWellFormed (List.replicate 257 1) = false := by
  unfold imageWellFormed; rw [List.length_replicate]; rfl

theorem test_image_full_accepted : imageWellFormed (List.replicate 256 1) = true := by
  unfold imageWellFormed; rw [List.length_replicate]; rfl

theorem test_operand_255_accepted : (Instr.store 255).wellFormed = true := by decide

theorem test_fault_record_refused : faultRecordWellFormed ⟨.stackOverflow, 300, 0⟩ = false := by decide

theorem test_fault_info_refused : faultRecordWellFormed ⟨.stackOverflow, 3, 7⟩ = false := by decide

/-! ### Decoding: words written out from 30_encoding.md R51, R52 and the column "opcode byte" of R55 -/

theorem test_decode_nop : decode [0b00000001#8] = .ok (.nop, []) := rfl
theorem test_decode_store : decode [0b00000010#8, 0b01100100#8] = .ok (.store 100, []) := rfl
theorem test_decode_add : decode [0b00000011#8, 0b11111111#8] = .ok (.add 255, []) := rfl
theorem test_decode_sub : decode [0b00000100#8, 0b00000010#8] = .ok (.sub 2, []) := rfl
theorem test_decode_loadi : decode [0b00000101#8, 0b11111010#8] = .ok (.loadi 250, []) := rfl
theorem test_decode_loadm : decode [0b00000110#8, 0b00000000#8] = .ok (.loadm 0, []) := rfl
theorem test_decode_jmp : decode [0b00000111#8, 0b00001000#8] = .ok (.jmp 8, []) := rfl
theorem test_decode_halt : decode [0b00001000#8] = .ok (.halt, []) := rfl
theorem test_decode_push : decode [0b00001001#8] = .ok (.push, []) := rfl
theorem test_decode_pop : decode [0b00001010#8] = .ok (.pop, []) := rfl
theorem test_decode_call : decode [0b00001011#8, 0b00010100#8] = .ok (.call 20, []) := rfl
theorem test_decode_ret : decode [0b00001100#8] = .ok (.ret, []) := rfl
theorem test_decode_jmpz : decode [0b00001101#8, 0b00011010#8] = .ok (.jmpz 26, []) := rfl
theorem test_decode_mul : decode [0b00001110#8, 0b00000011#8] = .ok (.mul 3, []) := rfl

/-- R56: 0x11 is not NOP, the upper four bits are not ignored. -/
theorem test_decode_upper_bits : decode [0b00010001#8] = .error (.unknownOpcode 17) := rfl

/-- R53: a one-byte instruction leaves the next byte alone. -/
theorem test_decode_leaves_rest : decode [0b00001001#8, 0b00001010#8] = .ok (.push, [10]) := rfl

/-- The opcode byte is the low byte of a table word. -/
theorem test_table_word : decodeTableWord 16 0x6402 = some (.store 100) := by decide

theorem test_table_word_short : decodeTableWord 8 0x0B = some (.call 0) := by decide

/-- The very first step after reset runs the word. -/
theorem test_fetch_word_runs :
    (nextOf (step (State.reset.withFetchWord 16 0xFA05))).map regs = some (250, false, 2, 255) := by decide

/-! ### One step of each instruction -/

/-- V-CT1. -/
theorem test_nop : (nextOf (step (start [(0, 1)]))).map (fun t => (regs t, t.icount, t.macc)) =
    some ((0, false, 1, 255), 1, 1) := by decide

/-- V-LS5. -/
theorem test_store_zero_keeps_flag :
    (nextOf (step (start [(0, 2), (1, 100), (100, 7)]))).map (fun t => (t.mem, t.z)) =
      some ([(0, 2), (1, 100)], false) := by decide

/-- V-LS6. -/
theorem test_store_over_own_operand :
    (nextOf (step { start [(0, 2), (1, 1)] with acc := 0x55 })).map (fun t => (t.mem, t.pc)) =
      some ([(0, 2), (1, 0x55)], 2) := by decide

/-- V-AR1. -/
theorem test_add_wraps :
    (nextOf (step { start [(0, 3), (1, 100), (100, 10)] with acc := 250 })).map regs = some (4, false, 2, 255) := by decide

/-- V-AR18. -/
theorem test_add_own_opcode : (nextOf (step { start [(0, 3)] with acc := 7 })).map regs = some (10, false, 2, 255) := by
  decide

/-- V-AR6. -/
theorem test_sub_borrows :
    (nextOf (step { start [(0, 4), (1, 100), (100, 5)] with acc := 3 })).map regs = some (254, false, 2, 255) := by decide

/-- V-AR7. -/
theorem test_sub_equal :
    (nextOf (step { start [(0, 4), (1, 100), (100, 5)] with acc := 5 })).map regs = some (0, true, 2, 255) := by decide

/-- V-LS1. -/
theorem test_loadi_zero : (nextOf (step { start [(0, 5)] with acc := 9 })).map regs = some (0, true, 2, 255) := by decide

/-- V-LS2. -/
theorem test_loadi_255 :
    (nextOf (step { start [(0, 5), (1, 255)] with z := true })).map regs = some (255, false, 2, 255) := by decide

/-- V-LS3. -/
theorem test_loadm_unwritten :
    (nextOf (step { start [(0, 6), (1, 100)] with acc := 5 })).map regs = some (0, true, 2, 255) := by decide

/-- V-LS4. -/
theorem test_loadm_own_opcode : (nextOf (step (start [(0, 6)]))).map regs = some (6, false, 2, 255) := by decide

/-- V-CT2. -/
theorem test_jmp : (nextOf (step (start [(0, 7), (1, 200)]))).map (fun t => (t.pc, t.jt, t.jnt)) = some (200, 1, 0) := by
  decide

/-- V-CT7. -/
theorem test_halt :
    (nextOf (step { start [(5, 8)] with pc := 5 })).map (fun t => (t.halted, t.fault, t.pc, t.icount)) =
      some (true, none, 6, 1) := by decide

/-- V-CY2. -/
theorem test_halt_at_255 :
    (nextOf (step { start [(255, 8)] with pc := 255 })).map (fun t => (t.halted, t.fault, t.pc)) =
      some (true, none, 256) := by decide

/-- V-ST1. -/
theorem test_push_first :
    (nextOf (step { start [(0, 9)] with acc := 37 })).map (fun t => (t.mem, t.sp, t.maxdepth)) =
      some ([(0, 9), (255, 37)], 254, 1) := by decide

/-- V-ST3. -/
theorem test_push_overflow :
    (nextOf (step { start [(0, 9)] with acc := 3, sp := 0 })).map (fun t => (t.fault, t.mem, t.pc, t.icount)) =
      some (some ⟨.stackOverflow, 0, 0⟩, [(0, 9)], 1, 0) := by decide

/-- V-ST5. -/
theorem test_pop_last :
    (nextOf (step { start [(0, 10), (1, 77)] with acc := 3, sp := 0 })).map regs = some (77, false, 1, 1) := by decide

/-- V-ST6. -/
theorem test_pop_underflow :
    (nextOf (step { start [(0, 10)] with acc := 3 })).map (fun t => (regs t, t.fault)) =
      some ((3, false, 1, 255), some ⟨.stackUnderflow, 0, 0⟩) := by decide

/-- V-ST7. -/
theorem test_call :
    (nextOf (step { start [(10, 11), (11, 50)] with pc := 10 })).map (fun t => (t.mem, t.sp, t.pc, t.jt)) =
      some ([(10, 11), (11, 50), (255, 12)], 254, 50, 1) := by decide

/-- V-CY5, step 2: the byte pushed for 256 is 0, over the operand byte of the CALL itself. -/
theorem test_call_at_top :
    (nextOf (step { start [(254, 11), (255, 10)] with pc := 254 })).map (fun t => (t.mem, t.sp, t.pc)) =
      some ([(254, 11)], 254, 10) := by decide

/-- V-ST9. -/
theorem test_ret :
    (nextOf (step { start [(9, 12), (101, 200)] with pc := 9, sp := 100 })).map (fun t => (regs t, t.jt, t.jnt)) =
      some ((0, false, 200, 101), 0, 0) := by decide

/-- V-ST10. -/
theorem test_ret_underflow :
    (nextOf (step { start [(9, 12)] with pc := 9 })).map (fun t => (t.fault, t.pc)) =
      some (some ⟨.stackUnderflow, 9, 0⟩, 10) := by decide

/-- V-CT4. -/
theorem test_jmpz_taken :
    (nextOf (step { start [(10, 13), (11, 80)] with pc := 10, z := true })).map (fun t => (t.pc, t.z, t.jt)) =
      some (80, true, 1) := by decide

/-- V-CT6: the flag is tested, not the accumulator. -/
theorem test_jmpz_looks_at_flag :
    (nextOf (step { start [(10, 13), (11, 80)] with pc := 10 })).map (fun t => (t.pc, t.acc, t.jnt)) =
      some (12, 0, 1) := by decide

/-- V-AR11. -/
theorem test_mul_low_byte_zero :
    (nextOf (step { start [(0, 14), (1, 100), (100, 16)] with acc := 16 })).map regs = some (0, true, 2, 255) := by decide

/-- V-AR14. -/
theorem test_mul_wraps :
    (nextOf (step { start [(0, 14), (1, 100), (100, 86)] with acc := 3 })).map regs = some (2, false, 2, 255) := by decide

/-! ### Faults and corners of the cycle -/

/-- V-FL3. -/
theorem test_unknown_opcode :
    (nextOf (step { start [(20, 0x11)] with pc := 20 })).map (fun t => (t.fault, t.pc, t.halted)) =
      some (some ⟨.unknownOpcode, 20, 17⟩, 21, true) := by decide

/-- V-FL5. -/
theorem test_fetch_at_256 :
    (nextOf (step { start [(0, 1)] with pc := 256 })).map (fun t => (t.fault, t.pc, t.macc)) =
      some (some ⟨.outOfBoundsFetch, 256, 0⟩, 256, 0) := by decide

/-- V-CY4. -/
theorem test_unknown_before_operand_check :
    (nextOf (step { start [] with pc := 255 })).map (fun t => (t.fault, t.pc)) =
      some (some ⟨.unknownOpcode, 255, 0⟩, 256) := by decide

/-- V-CY6. -/
theorem test_operand_check_before_stack_check :
    (nextOf (step { start [(255, 11)] with pc := 255, sp := 0 })).map (fun t => (t.fault, t.pc)) =
      some (some ⟨.outOfBoundsFetch, 255, 0⟩, 256) := by decide

/-- V-CT8. -/
theorem test_halted_has_no_step : step { start [(0, 1)] with halted := true } = .fault .halted := rfl

/-! ### The other push order (40_cycle.md R78, R79; 95_test_vectors.md 2.4, last paragraph) -/

theorem test_pre_decrement_push :
    (State.pushWith true 37 { start [] with sp := 255 }).toOption.map (fun t => (t.mem, t.sp)) =
      some ([(254, 37)], 254) := by decide

/-! ### Host and toolchain -/

/-- 60_exceptions.md R127. -/
theorem test_fault_kind_port :
    ({ start [] with fault := some ⟨.unknownOpcode, 3, 0⟩, halted := true } : State).ports.faultKind = 4 := by decide

/-- S11. -/
theorem test_print_byte : printByte 5 = ['0', '0', '0', '0', '0', '1', '0', '1'] := by decide

/-- R66: a line of binary digits is binary. -/
theorem test_load_line_binary : loadLine ['1', '0', '0'] = some 4 := by decide

/-- R63: `LOADI 300` emits 44; R64: `LOAD` is `LOADM`; R60: a label used before its line. -/
theorem test_assemble :
    assemble [['L', 'O', 'A', 'D', 'I', ' ', '3', '0', '0'], ['J', 'M', 'P', ' ', 'e', ';', 'x'],
      ['L', 'O', 'A', 'D', ' ', '0', 'x', '6', '4'], ['e', ':'], ['H', 'A', 'L', 'T']] =
      .ok [5, 44, 7, 6, 6, 100, 8] := by rfl

/-! ### Witnesses: states and operands that meet the hypotheses of the statements -/

theorem witness_BootPlacesTheImage :
    (List.replicate 256 (1 : Byte)).length ≤ 256 ∧ 256 < (List.replicate 257 (1 : Byte)).length := by
  rw [List.length_replicate, List.length_replicate]; decide

/-- Reset meets the invariant; so does the state booted with the image of P5. -/
theorem reset_inv : Inv State.reset :=
  ⟨by decide, by decide, by decide, by decide, by decide, by decide, by decide, by decide⟩

theorem witness_InvariantHoldsAfterReset :
    (∃ s, boot 9 true [5, 9, 10] = some s) ∧ Inv State.reset := ⟨⟨_, rfl⟩, reset_inv⟩

theorem witness_OpcodeByteDecidesLength :
    (1 : Byte).toNat ∈ [1, 8, 9, 10, 12] ∧ (12 : Byte).toNat ∈ [1, 8, 9, 10, 12] ∧
    (2 : Byte).toNat ∈ [2, 3, 4, 5, 6, 7, 11, 13, 14] ∧ (14 : Byte).toNat ∈ [2, 3, 4, 5, 6, 7, 11, 13, 14] ∧
    ((0 : Byte).toNat = 0 ∨ 15 ≤ (0 : Byte).toNat) ∧ 15 ≤ (15 : Byte).toNat ∧ 15 ≤ (255 : Byte).toNat := by decide

/-- A two-byte instruction in the last two cells, and a one-byte one in the last. -/
theorem witness_StepRunsTheDecodedInstruction :
    (∃ s : State, s.halted = false ∧ s.pc.toNat + (Instr.jmp 3).size ≤ 256 ∧
      ∀ (n : Nat) (b : Byte), (encode (.jmp 3))[n]? = some b → s.mem.read (BitVec.ofNat 8 (s.pc.toNat + n)) = b) ∧
    (∃ s : State, s.halted = false ∧ decode (window s) = .ok (.push, [])) := by
  refine ⟨⟨{ start [(254, 7), (255, 3)] with pc := 254 }, rfl, by decide, ?_⟩,
    ⟨{ start [(255, 9)] with pc := 255 }, rfl, rfl⟩⟩
  intro n b h
  match n with
  | 0 => cases h; rfl
  | 1 => cases h; rfl
  | _ + 2 => cases h

theorem witness_StepEnabledExactlyWhenRunning :
    (start []).halted = false ∧ ({ start [] with halted := true } : State).halted = true := by decide

theorem witness_OpcodeFetchAboveTopFaults :
    ∃ s : State, s.halted = false ∧ 255 < s.pc.toNat := ⟨{ start [] with pc := 256 }, rfl, by decide⟩

/-- Also a CALL with a full stack. -/
theorem witness_OperandFetchAtTopFaults :
    (∃ s : State, s.halted = false ∧ s.pc = 255 ∧ (s.mem.read 255).toNat ∈ [2, 3, 4, 5, 6, 7, 11, 13, 14]) ∧
    (∃ s : State, s.halted = false ∧ s.pc = 255 ∧ s.sp = 0 ∧
      (s.mem.read 255).toNat ∈ [2, 3, 4, 5, 6, 7, 11, 13, 14]) :=
  ⟨⟨{ start [(255, 14)] with pc := 255 }, rfl, rfl, by decide⟩,
    ⟨{ start [(255, 11)] with pc := 255, sp := 0 }, rfl, rfl, rfl, by decide⟩⟩

/-- For every two-byte opcode there is a state that meets `OperandFetchFaults`. -/
theorem witness_OperandFetchFaults (op : Byte) :
    ∃ s : State, s.halted = false ∧ s.pc = 255 ∧ s.mem.read 255 = op :=
  ⟨{ start [(255, op)] with pc := 255 }, rfl, rfl, rfl⟩

theorem witness_UnknownOpcodeFaults :
    (∃ s : State, s.halted = false ∧ s.pc = zext9 0 ∧ (s.mem.read 0).toNat = 0) ∧
    (∃ s : State, s.halted = false ∧ s.pc = zext9 255 ∧ 15 ≤ (s.mem.read 255).toNat) :=
  ⟨⟨start [], rfl, rfl, rfl⟩, ⟨{ start [(255, 15)] with pc := 255 }, rfl, rfl, by decide⟩⟩

theorem witness_NopOnlyAdvances : ∃ s : State, s.pc = 255 ∧ s.halted = false := ⟨{ start [] with pc := 255 }, rfl, rfl⟩

theorem witness_SubtractIsModulo256 :
    (∃ s : State, (s.mem.read 0).toNat ≤ s.acc.toNat) ∧ (∃ s : State, s.acc.toNat < (s.mem.read 0).toNat) :=
  ⟨⟨{ start [(0, 4)] with acc := 4 }, by decide⟩, ⟨{ start [(0, 4)] with acc := 3 }, by decide⟩⟩

theorem witness_JumpIfZeroTestsTheFlag : (∃ s : State, s.z = true) ∧ (∃ s : State, s.z = false) :=
  ⟨⟨{ start [] with z := true }, rfl⟩, ⟨start [], rfl⟩⟩

theorem witness_PushStoresTheAccumulator :
    (∃ s : State, s.sp ≠ 0 ∧ s.sp = 1) ∧ (∃ s : State, s.sp ≠ 0 ∧ s.sp = 255) :=
  ⟨⟨{ start [] with sp := 1 }, by decide, rfl⟩, ⟨start [], by decide, rfl⟩⟩

theorem witness_PopLoadsTheAccumulator :
    (∃ s : State, s.sp ≠ 255 ∧ s.sp = 0) ∧ (∃ s : State, s.sp ≠ 255 ∧ s.sp = 254) :=
  ⟨⟨{ start [] with sp := 0 }, by decide, rfl⟩, ⟨{ start [] with sp := 254 }, by decide, rfl⟩⟩

theorem witness_CallPushesTheReturnAddress :
    ∃ s : State, s.sp ≠ 0 ∧ s.pc = 254 := ⟨{ start [] with pc := 254 }, by decide, rfl⟩

theorem witness_ReturnPopsTheProgramCounter : ∃ s : State, s.sp ≠ 255 := ⟨{ start [] with sp := 254 }, by decide⟩

theorem witness_PushAndCallOverflow : ∃ s : State, s.sp = 0 := ⟨{ start [] with sp := 0 }, rfl⟩

theorem witness_PopAndReturnUnderflow : ∃ s : State, s.sp = 255 := ⟨start [], rfl⟩

theorem witness_OnlySixInstructionsUpdateTheFlag :
    (∃ s t, exec (.add 3) s = .next t ∧ updatesFlag (.add 3) = true ∧ stackFaults (.add 3) s = false) ∧
    (∃ s t, exec .pop s = .next t ∧ updatesFlag .pop = true ∧ stackFaults .pop s = true) ∧
    (∃ s t, exec .ret s = .next t ∧ updatesFlag .ret = false ∧ stackFaults .ret s = false) :=
  ⟨⟨start [], _, rfl, rfl, rfl⟩, ⟨start [], _, rfl, rfl, rfl⟩, ⟨{ start [] with sp := 7 }, _, rfl, rfl, rfl⟩⟩

theorem witness_MemoryChangesOnlyAtTheStoredCell :
    (∃ s t, exec .push s = .next t ∧ storedCell .push s = some 255 ∧ storedCell .push s ≠ some 254) ∧
    (∃ s t, exec (.add 3) s = .next t ∧ storedCell (.add 3) s ≠ some 3) :=
  ⟨⟨start [], _, rfl, by decide, by decide⟩, ⟨start [], _, rfl, by decide⟩⟩

theorem witness_RegistersChangeOnlyWhereNamed :
    (∃ s t, exec (.mul 3) s = .next t ∧ usesStack (.mul 3) = false ∧ stackFaults (.mul 3) s = false ∧
      (∀ k, Instr.mul 3 ≠ .jmp k ∧ Instr.mul 3 ≠ .jmpz k ∧ Instr.mul 3 ≠ .call k) ∧ Instr.mul 3 ≠ .halt) ∧
    (∃ s t, exec (.call 3) s = .next t ∧ stackFaults (.call 3) s = true) ∧
    (∃ s t, exec .pop s = .next t ∧ Instr.pop ∈ [Instr.pop, Instr.ret]) :=
  ⟨⟨start [], _, rfl, rfl, rfl, by simp, by simp⟩, ⟨{ start [] with sp := 0 }, _, rfl, rfl⟩,
    ⟨start [], _, rfl, by simp⟩⟩

theorem witness_StepKeepsTheInvariant : ∃ t, Inv State.reset ∧ step State.reset = .next t := ⟨_, reset_inv, rfl⟩

theorem witness_StepKeepsFlagAgreement :
    ∃ s t, FlagAgrees s ∧ step s = .next t :=
  ⟨{ start [(0, 5), (1, 3)] with z := true }, _, by simp [FlagAgrees, start, State.resetWith], rfl⟩

/-- The first step of P5 executes LOADI. -/
theorem witness_ReachableStatesMeetTheInvariants :
    ∃ s, boot 9 true [5, 9, 10] = some s ∧ (runFor 0 s).halted = false ∧ fetch (runFor 0 s) = .ok (.loadi 9) ∧
      updatesFlag (.loadi 9) = true ∧ stackFaults (.loadi 9) (runFor 0 s) = false :=
  ⟨_, rfl, rfl, rfl, rfl, rfl⟩

theorem witness_FaultsArePrecise :
    ∃ t, State.reset.fault = none ∧ step State.reset = .next t ∧ t.fault ≠ none := ⟨_, rfl, rfl, by simp [State.raise]⟩

theorem witness_OnlyHaltAndFaultsHalt :
    (∃ s t, s.fault = none ∧ step s = .next t ∧ t.halted = true ∧ t.fault = none) ∧
    (∃ s t, s.fault = none ∧ step s = .next t ∧ t.halted = true ∧ t.fault ≠ none) :=
  ⟨⟨start [(0, 8)], _, rfl, rfl, rfl, rfl⟩, ⟨start [], _, rfl, rfl, rfl, by simp [State.raise]⟩⟩

theorem witness_StackPointerMovesByOne :
    ∃ t, step (start [(0, 9)]) = .next t ∧ t.sp = 254 := ⟨_, rfl, rfl⟩

theorem witness_StepsAreCounted :
    (∃ s t, s.fault = none ∧ step s = .next t ∧ t.fault = none) ∧
    (∃ s t, s.fault = none ∧ step s = .next t ∧ t.fault ≠ none) :=
  ⟨⟨start [(0, 8)], _, rfl, rfl, rfl⟩, ⟨start [], _, rfl, rfl, by simp [State.raise]⟩⟩

theorem witness_CountersNeverAffectTheRun :
    ∃ s u : State, s ≠ u ∧ dropCounters s = dropCounters u :=
  ⟨start [(0, 9)], { start [(0, 9)] with icount := 5, maxdepth := 3 }, by decide, rfl⟩

/-- The two memories differ in a cell that LOADM 7 does not read. -/
theorem witness_ListedReadsDecideTheStep :
    ∃ (s : State) (m : Memory), m ≠ s.mem ∧ ∀ a : Byte, Access.read a ∈ accesses s → m.read a = s.mem.read a := by
  refine ⟨start [(0, 6), (1, 7)], [(0, 6), (1, 7), (8, 1)], by decide, ?_⟩
  have hacc : accesses (start [(0, 6), (1, 7)]) = [.read 0, .read 1, .read 7] := by decide
  intro a ha
  rw [hacc] at ha
  simp only [List.mem_cons, Access.read.injEq, List.not_mem_nil, or_false] at ha
  rcases ha with rfl | rfl | rfl <;> rfl

theorem witness_StepMakesTheListedAccesses :
    ∃ t, step (start [(0, 9)]) = .next t ∧ Access.write 254 ∉ accesses (start [(0, 9)]) := ⟨_, rfl, by decide⟩

theorem witness_HaltedRunsStayAsTheyAre : (runFor 1 (start [(0, 8)])).halted = true := by decide

theorem witness_PushThenPopRestores :
    (∃ s1, (start []).pushWith true 3 = .ok s1) ∧ (∃ s1, (start []).pushWith false 3 = .ok s1) ∧
    (∃ t, (start []).sp ≠ 0 ∧ exec .push (start []) = .next t) :=
  ⟨⟨_, rfl⟩, ⟨_, rfl⟩, ⟨_, by decide, rfl⟩⟩

theorem witness_CallThenReturnContinuesAfterTheCall :
    ∃ t u : State, (start []).sp ≠ 0 ∧ exec (.call 9) (start []) = .next t ∧ u.sp = t.sp ∧
      u.mem.read (pushCell Config.stackPreDecrement (start []).sp) =
        t.mem.read (pushCell Config.stackPreDecrement (start []).sp) :=
  ⟨_, _, by decide, rfl, rfl, rfl⟩

theorem witness_JumpIfZeroFollowsLoadImmediate :
    (∃ t, exec (.loadi 0) (start []) = .next t) ∧ (∃ t, exec (.loadi 1) (start []) = .next t) := ⟨⟨_, rfl⟩, ⟨_, rfl⟩⟩

/-- STORE writes HALT just after itself; PUSH at 254 writes it into cell 255; CALL 255 pushes 8 and jumps onto it. -/
theorem witness_StoredByteIsFetchedAtOnce :
    (∃ s t, exec (.store 2) s = .next t ∧ storedCell (.store 2) s = some 2 ∧ t.halted = false ∧ t.pc = zext9 2 ∧
      encode .halt = [storedByte (.store 2) s]) ∧
    (∃ s t, exec .push s = .next t ∧ storedCell .push s = some 255 ∧ t.halted = false ∧ t.pc = zext9 255 ∧
      encode .halt = [storedByte .push s]) ∧
    (∃ s t, exec (.call 255) s = .next t ∧ storedCell (.call 255) s = some 255 ∧ t.halted = false ∧
      t.pc = zext9 255 ∧ encode .halt = [storedByte (.call 255) s]) :=
  ⟨⟨{ start [] with acc := 8 }, _, rfl, rfl, rfl, rfl, rfl⟩,
    ⟨{ start [] with acc := 8, pc := 254 }, _, rfl, by decide, rfl, rfl, rfl⟩,
    ⟨{ start [] with pc := 6 }, _, rfl, by decide, rfl, rfl, by decide⟩⟩

theorem witness_MemoryPrimitivesReadAndWriteOneCell : (start [(0, 5)]).mem.wf = true := by decide

theorem witness_CanonicalMemoriesWithEqualReadsAreEqual :
    Memory.wf [(3, 1), (255, 2)] = true ∧ ∀ a : Byte, Memory.read [(3, 1), (255, 2)] a = Memory.read [(3, 1), (255, 2)] a :=
  ⟨by decide, fun _ => rfl⟩

theorem witness_OutOfRangeOperandsDegrade : 100 ≤ (100 : Byte).toNat := by decide

theorem witness_PortsShowTheState :
    (start []).fault = none ∧ ({ start [] with fault := some ⟨.outOfBoundsFetch, 256, 0⟩ } : State).fault =
      some ⟨.outOfBoundsFetch, 256, 0⟩ := ⟨rfl, rfl⟩

theorem witness_AssembledImageIsItsInstructions :
    ∃ image, assemble [['P', 'U', 'S', 'H'], ['a', ':'], [], ['J', 'M', 'P', ' ', 'a']] = .ok image := ⟨_, rfl⟩

end Sys2Proof.Tests
end

/-! ## Encoding: the opcode byte decides the length (30_encoding.md R53) -/

namespace Sys2Proof

/-- The one-byte row of R53. -/
theorem Opcode.format_eq_op_iff (o : Opcode) : o.format = .op ↔ o.code.toNat ∈ [1, 8, 9, 10, 12] := by
  cases o <;> decide

/-- The two-byte row of R53. -/
theorem Opcode.format_eq_opk_iff (o : Opcode) :
    o.format = .opk ↔ o.code.toNat ∈ [2, 3, 4, 5, 6, 7, 11, 13, 14] := by
  cases o <;> decide

/-- Every byte of a list of numbers from 1 to 14 is the code of an opcode. -/
theorem Opcode.exists_code_eq {b : Byte} {codes : List Nat} (hcodes : ∀ n ∈ codes, 1 ≤ n ∧ n ≤ 14)
    (hb : b.toNat ∈ codes) : ∃ o : Opcode, o.code = b := by
  have hsome : Opcode.ofByte b ≠ none := by
    rw [Ne, Opcode.ofByte_eq_none]
    have := hcodes _ hb
    omega
  obtain ⟨o, ho⟩ := Option.ne_none_iff_exists'.mp hsome
  exact ⟨o, (Opcode.code_of_ofByte ho).symm⟩

@[simp] theorem Opcode.size_withOperand (o : Opcode) (k : Byte) : (o.withOperand k).size = o.format.size := by
  rw [Instr.size, Opcode.opcode_withOperand]

theorem decode_one_byte {op : Byte} (h : op.toNat ∈ [1, 8, 9, 10, 12]) (rest : List Byte) :
    ∃ i, decode (op :: rest) = .ok (i, rest) ∧ i.size = 1 ∧ i.operand? = none := by
  obtain ⟨o, rfl⟩ := Opcode.exists_code_eq (by decide) h
  have hf : o.format = .op := o.format_eq_op_iff.mpr h
  refine ⟨o.withOperand 0, decode_op o.ofByte_code hf rest, ?_, Instr.operand?_op ?_⟩
  · rw [Opcode.size_withOperand, hf, Format.size]
  · rw [Opcode.opcode_withOperand, hf]

theorem decode_two_bytes {op : Byte} (h : op.toNat ∈ [2, 3, 4, 5, 6, 7, 11, 13, 14]) (k : Byte) (rest : List Byte) :
    ∃ i, decode (op :: k :: rest) = .ok (i, rest) ∧ i.size = 2 ∧ i.operand? = some k := by
  obtain ⟨o, rfl⟩ := Opcode.exists_code_eq (by decide) h
  have hf : o.format = .opk := o.format_eq_opk_iff.mpr h
  refine ⟨o.withOperand k, decode_opk o.ofByte_code hf k rest, ?_, Opcode.operand?_withOperand hf k⟩
  rw [Opcode.size_withOperand, hf, Format.size]

theorem decode_not_an_opcode {op : Byte} (h : op.toNat = 0 ∨ 15 ≤ op.toNat) (rest : List Byte) :
    decode (op :: rest) = .error (.unknownOpcode op) := by
  have hnone : Opcode.ofByte op = none := (Opcode.ofByte_eq_none op).mpr (by omega)
  exact decode_unknown hnone rest

/-- Settles O5, one lemma for each of the three ranges of R53: the byte is the code of an opcode of that format, or of
none. -/
theorem opcodeByteDecidesLength : Obligations.OpcodeByteDecidesLength := fun _ k rest =>
  ⟨fun h => decode_one_byte h rest, fun h => decode_two_bytes h k rest, fun h => decode_not_an_opcode h rest⟩

end Sys2Proof


/-! ## Load and store: the exception shared by the two-byte instructions (40_cycle.md R73), then R85 to R87 -/

namespace Sys2Proof.Machine

/-- The step that meets a two-byte opcode in cell 255, whatever else the state holds. -/
theorem step_opk_at_top {s : State} {o : Opcode} (hrun : s.halted = false) (hpc : s.pc = 255)
    (hop : s.mem.read 255 = o.code) (hf : o.format = .opk) :
    step s = .next (s.fetchByte.raise .outOfBoundsFetch s.pc 0) := by
  have hcell : pcByte s.pc = 255 := by rw [hpc]; rfl
  have ho : Opcode.ofByte (s.mem.read (pcByte s.pc)) = some o := by rw [hcell, hop, Opcode.ofByte_code]
  have htop : s.pc.toNat = 255 := by rw [hpc]; rfl
  exact step_fault hrun (fetch_missing htop ho hf)

/-- The exception of every two-byte instruction, said once for its opcode. -/
theorem operandFetchFaults_code {o : Opcode} (hf : o.format = .opk) : OperandFetchFaults o.code :=
  fun s hrun hpc hop =>
    ⟨_, ⟨.outOfBoundsFetch, s.pc, 0⟩, step_opk_at_top hrun hpc hop hf, rfl, rfl, rfl, rfl, rfl, rfl, rfl, fun _ => rfl⟩

/-- A counted write shows in no other cell. -/
theorem State.memWrite_unchangedExcept (k v : Byte) (s : State) : MemoryUnchangedExcept k s (s.memWrite k v) := by
  intro a ha
  rw [State.memWrite_mem, Memory.read_write, if_neg ha]

/-- Settles O13: the write is to cell `k` alone, and the exception is the one of every two-byte instruction. -/
theorem storeWritesTheAccumulator : Obligations.StoreWritesTheAccumulator := by
  refine ⟨fun k s => ⟨_, exec_store s k, ?cell, ?others, rfl, rfl, rfl, pc_add_two s.pc, rfl, rfl, rfl⟩, ?exception⟩
  case cell => exact Memory.read_write_self s.mem k s.acc
  case others => exact State.memWrite_unchangedExcept k s.acc s.fetchOpk
  case exception => exact operandFetchFaults_code (o := .store) rfl

/-- Settles O14: the flag is that of the operand byte; the fetched bytes are already in the instruction, so no memory is
looked at. -/
theorem loadImmediateSetsAccumulator : Obligations.LoadImmediateSetsAccumulator := by
  refine ⟨fun k s => ⟨_, exec_loadi s k, rfl, ?flag, rfl, pc_add_two s.pc, ⟨rfl, rfl, rfl⟩, ?memory, ?anyMemory⟩,
    ?exception⟩
  case flag => exact zeroFlag_iff k
  case memory => exact fun _ => rfl
  case anyMemory => exact fun m => exec_loadi { s with mem := m } k
  case exception => exact operandFetchFaults_code (o := .loadi) rfl

/-- Settles O15: the byte read is the one cell `k` held at the start of the step, and the flag is that byte's. -/
theorem loadMemorySetsAccumulator : Obligations.LoadMemorySetsAccumulator := by
  refine ⟨fun k s => ⟨_, exec_loadm s k, rfl, ?flag, rfl, pc_add_two s.pc, ⟨rfl, rfl, rfl⟩, ?memory⟩, ?exception⟩
  case flag => exact zeroFlag_iff (s.mem.read k)
  case memory => exact fun _ => rfl
  case exception => exact operandFetchFaults_code (o := .loadm) rfl

end Sys2Proof.Machine


/-! ## Arithmetic: when the ALU answers 0 (42_arithmetic.md R94), the state ADD, SUB and MUL leave, then R90 to R92 -/

namespace Sys2Proof.Machine

theorem byte_eq_zero_iff (b : Byte) : b = 0 ↔ b.toNat = 0 := BitVec.toNat_inj.symm

/-- Two bytes sum to at most 510, so the only sums that wrap to 0 are 0 and 256. -/
theorem aluAdd_eq_zero_iff (a b : Byte) :
    aluAdd a b = 0 ↔ a.toNat + b.toNat = 0 ∨ a.toNat + b.toNat = 256 := by
  have ha := a.isLt
  have hb := b.isLt
  rw [byte_eq_zero_iff, aluAdd_toNat]
  omega

theorem aluSub_eq_zero_iff (a b : Byte) : aluSub a b = 0 ↔ a = b := by rw [aluSub_eq, sub_eq_zero]

theorem aluMul_eq_zero_iff (a b : Byte) : aluMul a b = 0 ↔ 256 ∣ a.toNat * b.toNat := by
  rw [byte_eq_zero_iff, aluMul_toNat, Nat.dvd_iff_mod_eq_zero]

/-- The state an arithmetic instruction leaves when it has read cell `k` and the ALU answers `v` (R93). -/
def State.afterAlu (k v : Byte) (s : State) : State := ((s.fetchOpk.memRead k).2.writeAcc v).complete

variable (s : State) (k v : Byte)

theorem exec_add_afterAlu : exec (.add k) s = .next (s.afterAlu k (aluAdd s.acc (s.mem.read k))) := exec_add s k

theorem exec_sub_afterAlu : exec (.sub k) s = .next (s.afterAlu k (aluSub s.acc (s.mem.read k))) := exec_sub s k

theorem exec_mul_afterAlu : exec (.mul k) s = .next (s.afterAlu k (aluMul s.acc (s.mem.read k))) := exec_mul s k

@[simp] theorem State.afterAlu_acc : (s.afterAlu k v).acc = v := rfl

/-- The flag tells of the wrapped result and of nothing else (R94). -/
@[simp] theorem State.afterAlu_z_iff : (s.afterAlu k v).z = true ↔ v = 0 := zeroFlag_iff v

/-- What every arithmetic instruction leaves as it was, and where it leaves the program counter (R90 to R92). -/
theorem State.afterAlu_frame :
    (s.afterAlu k v).sp = s.sp ∧ (s.afterAlu k v).pc = s.pc + 2 ∧ NoEvent s (s.afterAlu k v) ∧
      MemoryUnchanged s (s.afterAlu k v) :=
  ⟨rfl, pc_add_two s.pc, ⟨rfl, rfl, rfl⟩, fun _ => rfl⟩

/-- Settles O29: in each of the three the flag tells whether the ALU answered 0, which the operands decide. -/
theorem flagReflectsTheWrappedResult : Obligations.FlagReflectsTheWrappedResult := by
  intro k s
  refine ⟨⟨_, exec_add_afterAlu s k, State.afterAlu_z_iff s k _, ?sum⟩,
    ⟨_, exec_sub_afterAlu s k, State.afterAlu_z_iff s k _, ?difference⟩,
    ⟨_, exec_mul_afterAlu s k, State.afterAlu_z_iff s k _, ?product⟩⟩
  case sum => rw [State.afterAlu_z_iff, aluAdd_eq_zero_iff]
  case difference => rw [State.afterAlu_z_iff, aluSub_eq_zero_iff, BitVec.toNat_inj]
  case product => rw [State.afterAlu_z_iff, aluMul_eq_zero_iff]

/-- Settles O16: the value is the ALU's sum, the rest is the frame of the arithmetic instructions. -/
theorem addIsModulo256 : Obligations.AddIsModulo256 := by
  refine ⟨fun k s => ⟨_, exec_add_afterAlu s k, ?value, State.afterAlu_z_iff s k _, State.afterAlu_frame s k _⟩,
    ?exception⟩
  case value => exact aluAdd_toNat s.acc (s.mem.read k)
  case exception => exact operandFetchFaults_code (o := .add) rfl

/-- Settles O17: the two values are the two branches of the ALU's difference, which is 0 exactly for equal operands. -/
theorem subtractIsModulo256 : Obligations.SubtractIsModulo256 := by
  refine ⟨fun k s => ⟨_, exec_sub_afterAlu s k, ?noBorrow, ?borrow, State.afterAlu_z_iff s k _, ?equalOperands,
    State.afterAlu_frame s k _⟩, ?exception⟩
  case noBorrow =>
    intro hle
    rw [State.afterAlu_acc, aluSub_toNat, if_pos hle]
  case borrow =>
    intro hlt
    rw [State.afterAlu_acc, aluSub_toNat, if_neg (Nat.not_le.mpr hlt)]
  case equalOperands => rw [State.afterAlu_z_iff, aluSub_eq_zero_iff]
  case exception => exact operandFetchFaults_code (o := .sub) rfl

/-- Settles O18: the value is the low byte of the ALU's product; the frame shows that no other register or cell holds the
high byte. -/
theorem multiplyIsModulo256 : Obligations.MultiplyIsModulo256 := by
  refine ⟨fun k s => ⟨_, exec_mul_afterAlu s k, ?value, State.afterAlu_z_iff s k _, State.afterAlu_frame s k _⟩,
    ?exception⟩
  case value => exact aluMul_toNat s.acc (s.mem.read k)
  case exception => exact operandFetchFaults_code (o := .mul) rfl

end Sys2Proof.Machine


/-! ## Control: NOP (43_control.md R100) and the fetch above the top that can follow it (40_cycle.md R71) -/

namespace Sys2Proof.Machine

/-- The step of a running engine whose program counter is past the last cell. -/
theorem step_above_top {s : State} (hrun : s.halted = false) (hpc : 255 < s.pc.toNat) :
    step s = .next (s.raise .outOfBoundsFetch s.pc 0) := step_fault hrun (fetch_out hpc)

/-- Settles O12: NOP leaves the fetched state with its completion counted; from cell 255 the counter does not wrap, so
the next fetch is above the top. -/
theorem nopOnlyAdvances : Obligations.NopOnlyAdvances := by
  refine fun s => ⟨s.fetchOp.complete, exec_nop s, rfl, rfl, rfl, rfl, ⟨rfl, rfl, rfl⟩, fun _ => rfl, rfl, rfl, ?top⟩
  case top =>
    intro hpc
    have hpc' : s.fetchOp.complete.pc = 256 := by rw [State.complete_pc, State.fetchOp_pc, hpc]; rfl
    refine ⟨hpc', fun hrun => ?fault⟩
    case fault =>
      have habove : 255 < s.fetchOp.complete.pc.toNat := by rw [hpc']; decide
      exact ⟨_, _, step_above_top hrun habove, State.raise_halted .., State.raise_fault .., rfl⟩

end Sys2Proof.Machine


/-! ## Encoding: decoding and encoding are inverse (30_encoding.md R50 to R55) -/

namespace Sys2Proof

theorem encode_op {i : Instr} (hf : i.opcode.format = .op) : encode i = [i.opcode.code] := by
  rw [encode, Instr.operand?_op hf, Option.toList_none]

/-- The two bytes of an instruction of the format OPK, and what its opcode and its operand make. -/
theorem encode_opk {i : Instr} (hf : i.opcode.format = .opk) :
    ∃ k, encode i = [i.opcode.code, k] ∧ i.opcode.withOperand k = i := by
  obtain ⟨k, hk, hi⟩ := Instr.operand?_opk hf
  exact ⟨k, by rw [encode, hk, Option.toList_some], hi⟩

theorem decode_encode (i : Instr) (rest : List Byte) : decode (encode i ++ rest) = .ok (i, rest) := by
  cases hf : i.opcode.format with
  | op =>
    rw [encode_op hf, List.singleton_append, decode_op i.opcode.ofByte_code hf, Instr.withOperand_op hf]
  | opk =>
    obtain ⟨k, hbytes, hi⟩ := encode_opk hf
    rw [hbytes, List.cons_append, List.singleton_append, decode_opk i.opcode.ofByte_code hf, hi]

theorem encode_withOperand_op {o : Opcode} (hf : o.format = .op) (k : Byte) : encode (o.withOperand k) = [o.code] := by
  rw [encode_op (by rwa [Opcode.opcode_withOperand]), Opcode.opcode_withOperand]

theorem encode_withOperand_opk {o : Opcode} (hf : o.format = .opk) (k : Byte) :
    encode (o.withOperand k) = [o.code, k] := by
  rw [encode, Opcode.opcode_withOperand, Opcode.operand?_withOperand hf, Option.toList_some]

/-- The bytes the decoder has taken are the encoding of what it answers. -/
theorem encode_of_decode {bytes rest : List Byte} {i : Instr} (h : decode bytes = .ok (i, rest)) :
    bytes = encode i ++ rest := by
  cases bytes with
  | nil => cases h
  | cons b tail =>
    cases ho : Opcode.ofByte b with
    | none => rw [decode_unknown ho] at h; cases h
    | some o =>
      obtain rfl := Opcode.code_of_ofByte ho
      cases hf : o.format with
      | op =>
        rw [decode_op ho hf] at h
        cases h
        rw [encode_withOperand_op hf, List.singleton_append]
      | opk =>
        cases tail with
        | nil => rw [decode_missing ho hf] at h; cases h
        | cons k tail =>
          rw [decode_opk ho hf] at h
          cases h
          rw [encode_withOperand_opk hf, List.cons_append, List.singleton_append]

/-- Settles O4: the decoder takes exactly the bytes of the encoding. -/
theorem decodeInvertsEncode : Obligations.DecodeInvertsEncode := by
  intro bytes i rest
  refine ⟨encode_of_decode, ?_⟩
  rintro rfl
  exact decode_encode i rest

/-- Settles O6: each word is the encoding of its instruction, with nothing after it. -/
theorem wordsOfTheOpcodeMapDecode : Obligations.WordsOfTheOpcodeMapDecode :=
  ⟨decode_encode .nop [], decode_encode (.store 100) [], decode_encode (.sub 2) [], decode_encode .push [],
    decode_encode (.call 20) [], decode_encode (.jmpz 26) []⟩

end Sys2Proof


/-! ## The cycle: what is fetched, and the faults of a fetch (40_cycle.md R70 to R73) -/

namespace Sys2Proof.Machine

variable {s : State} {i : Instr}

/-- The opcode of a fetched instruction stands at the program counter. -/
theorem fetch_opcode (h : fetch s = .ok i) :
    s.pc.toNat ≤ 255 ∧ s.mem.read (pcByte s.pc) = i.opcode.code := by
  rcases fetch_cases s with ⟨_, hf⟩ | ⟨_, _, hf⟩ | ⟨_, _, _, _, hf⟩ | ⟨o, hpc, ho, _, hf⟩ | ⟨o, hpc, ho, _, hf⟩ <;>
    rw [h] at hf <;> cases hf <;> rw [Opcode.opcode_withOperand]
  · exact ⟨hpc, Opcode.code_of_ofByte ho⟩
  · exact ⟨by omega, Opcode.code_of_ofByte ho⟩

theorem fetch_of_decode {rest : List Byte} (h : decode (window s) = .ok (i, rest)) : fetch s = .ok i := by
  simp only [fetch, h]

/-- A program counter of at most 255 names the cell of its own number. -/
theorem pcByte_eq_ofNat (pc : PcWord) : pcByte pc = BitVec.ofNat 8 pc.toNat := by
  apply BitVec.eq_of_toNat_eq
  rw [pcByte_toNat, BitVec.toNat_ofNat]

theorem pcByte_succ_eq_ofNat (pc : PcWord) : pcByte (pc + 1) = BitVec.ofNat 8 (pc.toNat + 1) := by
  apply BitVec.eq_of_toNat_eq
  rw [pcByte_toNat, BitVec.toNat_add, BitVec.toNat_ofNat]
  exact Nat.mod_mod_of_dvd _ (by decide)

/-- A one-byte instruction is fetched where its opcode stands. -/
theorem fetch_encoded_op (hpc : s.pc.toNat ≤ 255) (hf : i.opcode.format = .op)
    (hop : s.mem.read (pcByte s.pc) = i.opcode.code) : fetch s = .ok i := by
  rw [fetch_op hpc (by rw [hop, Opcode.ofByte_code]) hf, Instr.withOperand_op hf]

/-- An instruction whose bytes all stand at the program counter, below the top of memory, is fetched. -/
theorem fetch_encoded (hfits : s.pc.toNat + i.size ≤ 256)
    (hbytes : ∀ (n : Nat) (b : Byte), (encode i)[n]? = some b → s.mem.read (BitVec.ofNat 8 (s.pc.toNat + n)) = b) :
    fetch s = .ok i := by
  have hop : s.mem.read (pcByte s.pc) = i.opcode.code := by
    rw [pcByte_eq_ofNat]
    exact hbytes 0 i.opcode.code rfl
  rw [Instr.size] at hfits
  cases hf : i.opcode.format with
  | op =>
    rw [hf, Format.size] at hfits
    exact fetch_encoded_op (by omega) hf hop
  | opk =>
    rw [hf, Format.size] at hfits
    obtain ⟨k, hencode, hi⟩ := encode_opk hf
    have hk : s.mem.read (pcByte (s.pc + 1)) = k := by
      rw [pcByte_succ_eq_ofNat]
      exact hbytes 1 k (by rw [hencode]; rfl)
    rw [fetch_opk (by omega) (by rw [hop, Opcode.ofByte_code]) hf, hk, hi]

/-- Settles O7: in both parts the fetch answers the instruction. -/
theorem stepRunsTheDecodedInstruction : Obligations.StepRunsTheDecodedInstruction :=
  ⟨fun _ _ hrun hfits hbytes => step_exec hrun (fetch_encoded hfits hbytes),
    fun _ _ _ hrun hdecode => step_exec hrun (fetch_of_decode hdecode)⟩

/-- A running engine has a next state, whether its fetch answers an instruction or a fault. -/
theorem step_running (hrun : s.halted = false) : ∃ t, step s = .next t := by
  cases hf : fetch s with
  | ok i => rw [step_exec hrun hf]; exact exec_answers i s
  | error t => exact ⟨t, step_fault hrun hf⟩

/-- Settles O8: a next state comes from a running engine only, and always. -/
theorem stepEnabledExactlyWhenRunning : Obligations.StepEnabledExactlyWhenRunning :=
  fun _ => ⟨⟨fun ⟨_, ht⟩ => (step_cases ht).1, step_running⟩, step_halted⟩

/-- Settles O9: nothing has been fetched, so the fault entry is the whole of the step. -/
theorem opcodeFetchAboveTopFaults : Obligations.OpcodeFetchAboveTopFaults :=
  fun _ hrun hpc => step_above_top hrun hpc

/-- Settles O10: the byte is the code of a two-byte opcode, whose operand has no cell. -/
theorem operandFetchAtTopFaults : Obligations.OperandFetchAtTopFaults := by
  intro s hrun hpc hop
  obtain ⟨o, ho⟩ := Opcode.exists_code_eq (by decide) hop
  have hf : o.format = .opk := o.format_eq_opk_iff.mpr (ho ▸ hop)
  rw [step_opk_at_top hrun hpc ho.symm hf]
  simp only [State.raise, State.fetchByte, hpc]
  rfl

/-- Settles O11: the byte selects no opcode, and nothing after it is fetched. -/
theorem unknownOpcodeFaults : Obligations.UnknownOpcodeFaults := by
  intro s addr hrun hpc hop
  have hcell : pcByte s.pc = addr := by rw [hpc, pcByte_zext9]
  have hle : s.pc.toNat ≤ 255 := by
    have := addr.isLt
    rw [hpc, zext9_toNat]
    omega
  have hnone : Opcode.ofByte (s.mem.read (pcByte s.pc)) = none := by
    rw [hcell, Opcode.ofByte_eq_none]
    omega
  rw [step_fault hrun (fetch_unknown hle hnone), hcell]
  rfl

end Sys2Proof.Machine


/-! ## The step as a whole: the state each instruction completes in, field by field, and the state a fault leaves -/

namespace Sys2Proof.Machine

/-- The state in which an instruction completes whose stack check does not fire (`exec_ready` ties it to `exec`). -/
def State.after (i : Instr) (s : State) : State :=
  match i with
  | .nop => s.fetchOp.complete
  | .store k => (s.fetchOpk.memWrite k s.acc).complete
  | .add k => s.afterAlu k (aluAdd s.acc (s.mem.read k))
  | .sub k => s.afterAlu k (aluSub s.acc (s.mem.read k))
  | .mul k => s.afterAlu k (aluMul s.acc (s.mem.read k))
  | .loadi k => (s.fetchOpk.writeAcc k).complete
  | .loadm k => ((s.fetchOpk.memRead k).2.writeAcc (s.mem.read k)).complete
  | .jmp k => (s.fetchOpk.takeJump k).complete
  | .jmpz k => { s.fetchOpk.complete with
      pc := if s.z then zext9 k else s.pc + 1 + 1
      jt := if s.z then s.jt + 1 else s.jt
      jnt := if s.z then s.jnt else s.jnt + 1 }
  | .halt => { s.fetchOp.complete with halted := true }
  | .push => { s.fetchOp.complete with
      mem := s.mem.write s.sp s.acc
      macc := s.macc + 1 + 1
      sp := s.sp - 1
      maxdepth := max s.maxdepth (255 - (s.sp - 1).toNat) }
  | .call k => { (s.fetchOpk.takeJump k).complete with
      mem := s.mem.write s.sp (pcByte (s.pc + 2))
      macc := s.macc + 1 + 1 + 1
      sp := s.sp - 1
      maxdepth := max s.maxdepth (255 - (s.sp - 1).toNat) }
  | .pop => { s.fetchOp.complete with
      acc := s.mem.read (s.sp + 1)
      z := zeroFlag (s.mem.read (s.sp + 1))
      macc := s.macc + 1 + 1
      sp := s.sp + 1 }
  | .ret => { s.fetchOp.complete with
      pc := zext9 (s.mem.read (s.sp + 1))
      macc := s.macc + 1 + 1
      sp := s.sp + 1 }

/-- The instruction puts an entry on the stack. -/
def pushes : Instr → Bool
  | .push | .call _ => true
  | _ => false

/-- The instruction takes an entry off the stack. -/
def pops : Instr → Bool
  | .pop | .ret => true
  | _ => false

/-- The instruction can count a jump (10_state.md R18). -/
def countsJump : Instr → Bool
  | .jmp _ | .jmpz _ | .call _ => true
  | _ => false

theorem pushes_iff {i : Instr} : pushes i = true ↔ i = .push ∨ ∃ k, i = .call k := by
  cases i <;> simp [pushes]

theorem pops_iff {i : Instr} : pops i = true ↔ i = .pop ∨ i = .ret := by
  cases i <;> simp [pops]

theorem countsJump_iff {i : Instr} : countsJump i = true ↔ ∃ k, i = .jmp k ∨ i = .jmpz k ∨ i = .call k := by
  cases i <;> simp [countsJump]

theorem usesStack_eq (i : Instr) : usesStack i = (pushes i || pops i) := by cases i <;> rfl

variable {i : Instr} {s : State}

theorem sp_ne_zero_of_pushes (hready : stackFaults i s = false) (hi : pushes i = true) : s.sp ≠ 0 :=
  (stack_ready hready).1 (pushes_iff.mp hi)

theorem sp_ne_top_of_pops (hready : stackFaults i s = false) (hi : pops i = true) : s.sp ≠ 255 :=
  (stack_ready hready).2 (pops_iff.mp hi)

theorem exec_call_after (hsp : s.sp ≠ 0) (k : Byte) : exec (.call k) s = .next (s.after (.call k)) := by
  rw [exec_call hsp, pc_add_two]
  rfl

theorem exec_jmpz_after (k : Byte) : exec (.jmpz k) s = .next (s.after (.jmpz k)) := by
  rw [exec_jmpz]
  cases hz : s.z <;> simp only [State.after, hz] <;> rfl

theorem exec_ready (hready : stackFaults i s = false) : exec i s = .next (s.after i) := by
  cases i with
  | nop => exact exec_nop s
  | store k => exact exec_store s k
  | add k => exact exec_add_afterAlu s k
  | sub k => exact exec_sub_afterAlu s k
  | loadi k => exact exec_loadi s k
  | loadm k => exact exec_loadm s k
  | jmp k => exact exec_jmp s k
  | halt => exact exec_halt s
  | push => exact exec_push (sp_ne_zero_of_pushes hready rfl)
  | pop => exact exec_pop (sp_ne_top_of_pops hready rfl)
  | call k => exact exec_call_after (sp_ne_zero_of_pushes hready rfl) k
  | ret => exact exec_ret (sp_ne_top_of_pops hready rfl)
  | jmpz k => exact exec_jmpz_after k
  | mul k => exact exec_mul_afterAlu s k

/-! ### The fields of the completed state -/

section Fields

variable (i : Instr) (s : State)

@[simp] theorem State.after_fault : (s.after i).fault = s.fault := by cases i <;> rfl

@[simp] theorem State.after_warn : (s.after i).warn = s.warn := by cases i <;> rfl

@[simp] theorem State.after_icount : (s.after i).icount = s.icount + 1 := by cases i <;> rfl

@[simp] theorem State.after_cycles : (s.after i).cycles = s.cycles + 1 := by cases i <;> rfl

@[simp] theorem State.after_halted : (s.after i).halted = if i = .halt then true else s.halted := by cases i <;> rfl

/-- The flag decides where JMPZ ends. -/
theorem State.after_jmpz_pc (k : Byte) : (s.after (.jmpz k)).pc = if s.z then zext9 k else s.pc + 2 := by
  rw [← pc_add_two]
  rfl

theorem State.after_jmpz_jt (k : Byte) : (s.after (.jmpz k)).jt = if s.z then s.jt + 1 else s.jt := rfl

theorem State.after_jmpz_jnt (k : Byte) : (s.after (.jmpz k)).jnt = if s.z then s.jnt else s.jnt + 1 := rfl

/-- An instruction ends past its bytes, or at the byte it jumps or returns to. -/
theorem State.after_pc : (s.after i).pc = s.pc + BitVec.ofNat 9 i.size ∨ ∃ k, (s.after i).pc = zext9 k := by
  cases i with
  | nop | halt | push | pop => exact .inl rfl
  | store | add | sub | loadi | loadm | mul => exact .inl (pc_add_two s.pc)
  | jmp | call | ret => exact .inr ⟨_, rfl⟩
  | jmpz k =>
    rw [State.after_jmpz_pc]
    split
    · exact .inr ⟨k, rfl⟩
    · exact .inl rfl

theorem State.le_after_jt : s.jt ≤ (s.after i).jt := by
  cases i with
  | jmp | call => exact Nat.le_succ _
  | jmpz => rw [State.after_jmpz_jt]; split <;> omega
  | _ => exact le_refl _

theorem State.le_after_jnt : s.jnt ≤ (s.after i).jnt := by
  cases i with
  | jmpz => rw [State.after_jmpz_jnt]; split <;> omega
  | _ => exact le_refl _

variable {i}

theorem State.after_flag (hi : updatesFlag i = true) : (s.after i).z = zeroFlag (s.after i).acc := by
  cases i with
  | add | sub | loadi | loadm | pop | mul => rfl
  | _ => cases hi

theorem State.after_acc_of_not_updatesFlag (hi : updatesFlag i = false) :
    (s.after i).z = s.z ∧ (s.after i).acc = s.acc := by
  cases i with
  | add | sub | loadi | loadm | pop | mul => cases hi
  | _ => exact ⟨rfl, rfl⟩

theorem State.after_sp_of_pushes (hi : pushes i = true) :
    (s.after i).sp = s.sp - 1 ∧ (s.after i).maxdepth = max s.maxdepth (255 - (s.sp - 1).toNat) := by
  cases i with
  | push | call => exact ⟨rfl, rfl⟩
  | _ => cases hi

theorem State.after_sp_of_pops (hi : pops i = true) :
    (s.after i).sp = s.sp + 1 ∧ (s.after i).maxdepth = s.maxdepth := by
  cases i with
  | pop | ret => exact ⟨rfl, rfl⟩
  | _ => cases hi

theorem State.after_sp_of_not_usesStack (hi : usesStack i = false) :
    (s.after i).sp = s.sp ∧ (s.after i).maxdepth = s.maxdepth := by
  cases i with
  | push | call | pop | ret => cases hi
  | _ => exact ⟨rfl, rfl⟩

theorem State.after_jumps_of_not_countsJump (hi : countsJump i = false) :
    (s.after i).jt = s.jt ∧ (s.after i).jnt = s.jnt := by
  cases i with
  | jmp | call | jmpz => cases hi
  | _ => exact ⟨rfl, rfl⟩

variable {s}

theorem storedCell_of_pushes (hsp : s.sp ≠ 0) (hi : pushes i = true) : storedCell i s = some s.sp := by
  cases i with
  | push | call => exact if_neg hsp
  | _ => cases hi

theorem sp_ne_zero_of_storedCell {c : Byte} (hi : pushes i = true) (hc : storedCell i s = some c) : s.sp ≠ 0 := by
  rintro hsp
  have hnone : storedCell i s = none := by
    cases i with
    | push | call => exact if_pos hsp
    | _ => cases hi
  rw [hnone] at hc
  cases hc

/-- An instruction that stores writes its byte to its cell; for PUSH and CALL the cell is the one `SP` names (D5). -/
theorem State.after_mem_of_storedCell {c : Byte} (hc : storedCell i s = some c) :
    (s.after i).mem = s.mem.write c (storedByte i s) := by
  cases i with
  | store => cases hc; rfl
  | push | call =>
    rw [storedCell_of_pushes (sp_ne_zero_of_storedCell rfl hc) rfl] at hc
    cases hc
    rfl
  | _ => cases hc

theorem State.after_mem_of_not_storedCell (hready : stackFaults i s = false) (hc : storedCell i s = none) :
    (s.after i).mem = s.mem := by
  cases i with
  | store => cases hc
  | push | call =>
    rw [storedCell_of_pushes (sp_ne_zero_of_pushes hready rfl) rfl] at hc
    cases hc
  | _ => rfl

theorem State.after_macc (hready : stackFaults i s = false) :
    (s.after i).macc = s.macc + (fetchAccesses i s ++ dataAccesses i s).length := by
  cases i with
  | push | call => simp only [dataAccesses, if_neg (sp_ne_zero_of_pushes hready rfl)]; rfl
  | pop | ret => simp only [dataAccesses, if_neg (sp_ne_top_of_pops hready rfl)]; rfl
  | _ => rfl

end Fields

end Sys2Proof.Machine


/-! ## The two ends of a step: an instruction completed, or a fault after some fetches -/

namespace Sys2Proof.Machine

variable {i : Instr} {s t : State}

/-! ### The accesses of each end of a fetch (20_memory.md R33) -/

theorem accesses_of_fetch (hf : fetch s = .ok i) : accesses s = fetchAccesses i s ++ dataAccesses i s := by
  rw [fetch] at hf
  rw [accesses]
  split at hf <;> cases hf
  simp only [*]

theorem accesses_out (hpc : 255 < s.pc.toNat) : accesses s = [] := by
  rw [accesses, window_out hpc, decode]

theorem accesses_unknown (hpc : s.pc.toNat ≤ 255) (ho : Opcode.ofByte (s.mem.read (pcByte s.pc)) = none) :
    accesses s = [.read (pcByte s.pc)] := by
  obtain ⟨rest, hw⟩ := window_head hpc
  rw [accesses, hw, decode_unknown ho]

theorem accesses_missing {o : Opcode} (hpc : s.pc.toNat = 255)
    (ho : Opcode.ofByte (s.mem.read (pcByte s.pc)) = some o) (hf : o.format = .opk) :
    accesses s = [.read (pcByte s.pc)] := by
  rw [accesses, window_top hpc, decode_missing ho hf]

theorem fetchAccesses_op (hf : i.opcode.format = .op) : fetchAccesses i s = [.read (pcByte s.pc)] := by
  rw [fetchAccesses, hf]

theorem fetchAccesses_opk (hf : i.opcode.format = .opk) :
    fetchAccesses i s = [.read (pcByte s.pc), .read (pcByte (s.pc + 1))] := by
  rw [fetchAccesses, hf]

@[simp] theorem length_fetchAccesses (i : Instr) (s : State) : (fetchAccesses i s).length = i.size := by
  rw [Instr.size]
  cases hf : i.opcode.format with
  | op => rw [fetchAccesses_op hf]; rfl
  | opk => rw [fetchAccesses_opk hf]; rfl

theorem size_le_two (i : Instr) : i.size ≤ 2 := by
  rw [Instr.size]
  cases i.opcode.format <;> decide

theorem dataAccesses_of_stackFaults (hfault : stackFaults i s = true) : dataAccesses i s = [] := by
  cases i with
  | push | call | pop | ret => exact if_pos (of_decide_eq_true hfault)
  | _ => cases hfault

theorem length_dataAccesses_le (i : Instr) (s : State) : (dataAccesses i s).length ≤ 1 := by
  cases i with
  | push | call | pop | ret => rw [dataAccesses]; split <;> simp
  | _ => simp [dataAccesses]

/-! ### The state a fault leaves -/

/-- What a fault leaves when `n` bytes have been fetched (60_exceptions.md R121; log 6). -/
def State.faulted (n : Nat) (kind : FaultKind) (info : Byte) (s : State) : State :=
  { s with
    pc := s.pc + BitVec.ofNat 9 n
    macc := s.macc + n
    fault := some ⟨kind, s.pc, info⟩
    halted := true }

theorem raise_eq_faulted (kind : FaultKind) (info : Byte) (s : State) :
    s.raise kind s.pc info = s.faulted 0 kind info := by
  simp [State.raise, State.faulted]

theorem fetchByte_raise_eq_faulted (kind : FaultKind) (info : Byte) (s : State) :
    s.fetchByte.raise kind s.pc info = s.faulted 1 kind info := rfl

theorem fetchOpk_raise_eq_faulted (kind : FaultKind) (info : Byte) (s : State) :
    s.fetchOpk.raise kind s.pc info = s.faulted 2 kind info := by
  simp only [State.raise, State.fetchOpk, State.fetchByte, State.faulted, pc_add_two]
  rfl

/-- The fault of an instruction's stack check (60_exceptions.md R123, R124). -/
def stackFaultKind (i : Instr) : FaultKind := if pushes i then .stackOverflow else .stackUnderflow

/-- A stack check that fires leaves the fault after the fetch of the whole instruction. -/
theorem exec_faulted (hfault : stackFaults i s = true) :
    exec i s = .next (s.faulted i.size (stackFaultKind i) 0) := by
  cases i with
  | push => exact exec_push_full (of_decide_eq_true hfault)
  | pop => exact exec_pop_empty (of_decide_eq_true hfault)
  | ret => exact exec_ret_empty (of_decide_eq_true hfault)
  | call k =>
    rw [exec_call_full (of_decide_eq_true hfault), fetchOpk_raise_eq_faulted]
    rfl
  | _ => cases hfault

/-! ### The two ends -/

/-- The step faulted: the bytes fetched are all it accessed, they lie below the top of memory, and only UnknownOpcode
records a byte. -/
def Faults (s t : State) : Prop :=
  ∃ kind info, t = s.faulted (accesses s).length kind info ∧ (info = 0 ∨ kind = .unknownOpcode) ∧
    (s.pc.toNat ≤ 256 → s.pc.toNat + (accesses s).length ≤ 256)

/-- The step completed the instruction it fetched. -/
def Completes (i : Instr) (s t : State) : Prop :=
  fetch s = .ok i ∧ stackFaults i s = false ∧ t = s.after i

theorem exec_completes_or_faults (hf : fetch s = .ok i) (h : exec i s = .next t) : Completes i s t ∨ Faults s t := by
  cases hs : stackFaults i s with
  | false =>
    rw [exec_ready hs] at h
    cases h
    exact .inl ⟨hf, hs, rfl⟩
  | true =>
    have hlen : (accesses s).length = i.size := by
      rw [accesses_of_fetch hf, dataAccesses_of_stackFaults hs, List.append_nil, length_fetchAccesses]
    rw [exec_faulted hs] at h
    cases h
    exact .inr ⟨stackFaultKind i, 0, by rw [hlen], .inl rfl, fun _ => by rw [hlen]; exact fetch_fits hf⟩

/-- The fault of a fetch comes after no byte or after one. -/
theorem faults_of_fetch_error (hf : fetch s = .error t) : Faults s t := by
  rcases fetch_cases s with ⟨hpc, h⟩ | ⟨hpc, ho, h⟩ | ⟨o, hpc, ho, hopk, h⟩ | ⟨_, _, _, _, h⟩ | ⟨_, _, _, _, h⟩ <;>
    rw [hf] at h <;> cases h
  · refine ⟨.outOfBoundsFetch, 0, ?_, .inl rfl, ?_⟩ <;> rw [accesses_out hpc]
    · exact raise_eq_faulted ..
    · exact fun hle => hle
  · refine ⟨.unknownOpcode, s.mem.read (pcByte s.pc), ?_, .inr rfl, ?_⟩ <;> rw [accesses_unknown hpc ho]
    · exact fetchByte_raise_eq_faulted ..
    · exact fun _ => Nat.succ_le_succ hpc
  · refine ⟨.outOfBoundsFetch, 0, ?_, .inl rfl, ?_⟩ <;> rw [accesses_missing hpc ho hopk]
    · exact fetchByte_raise_eq_faulted ..
    · exact fun _ => Nat.succ_le_succ hpc.le

/-- All a step that answers a next state can be; what every step keeps follows from the fields of the two states. -/
theorem step_completes_or_faults (h : step s = .next t) : (∃ i, Completes i s t) ∨ Faults s t := by
  have hrun := (step_cases h).1
  cases hf : fetch s with
  | ok i =>
    rw [step_exec hrun hf] at h
    exact (exec_completes_or_faults hf h).imp_left fun hc => ⟨i, hc⟩
  | error u =>
    rw [step_fault hrun hf] at h
    cases h
    exact .inr (faults_of_fetch_error hf)

end Sys2Proof.Machine


/-! ## The invariant of every step (10_state.md R24) -/

namespace Sys2Proof.Machine

variable {i : Instr} {s t : State}

/-- How an instruction that completes moves the stack pointer, and the peak depth with it (10_state.md R13, R18). -/
theorem State.after_stack (hready : stackFaults i s = false) :
    (usesStack i = false ∧ (s.after i).sp = s.sp ∧ (s.after i).maxdepth = s.maxdepth) ∨
    (pushes i = true ∧ (s.after i).sp.toNat + 1 = s.sp.toNat ∧
      (s.after i).maxdepth = max s.maxdepth (255 - (s.after i).sp.toNat)) ∨
    (pops i = true ∧ (s.after i).sp.toNat = s.sp.toNat + 1 ∧ (s.after i).maxdepth = s.maxdepth) := by
  cases hpush : pushes i with
  | true =>
    have hne := sp_ne_zero_of_pushes hready hpush
    obtain ⟨hsp, hdepth⟩ := s.after_sp_of_pushes hpush
    refine .inr (.inl ⟨rfl, ?_, by rw [hdepth, hsp]⟩)
    have hpos : s.sp.toNat ≠ 0 := fun h0 => hne ((byte_eq_zero_iff _).mpr h0)
    rw [hsp, sp_pred hne]
    omega
  | false =>
    cases hpop : pops i with
    | true =>
      obtain ⟨hsp, hdepth⟩ := s.after_sp_of_pops hpop
      exact .inr (.inr ⟨rfl, by rw [hsp, sp_succ (sp_ne_top_of_pops hready hpop)], hdepth⟩)
    | false =>
      have huse : usesStack i = false := by rw [usesStack_eq, hpush, hpop]; rfl
      exact .inl ⟨huse, s.after_sp_of_not_usesStack huse⟩

theorem State.after_mem_wf (hready : stackFaults i s = false) (hwf : s.mem.wf = true) : (s.after i).mem.wf = true := by
  cases hc : storedCell i s with
  | none => rwa [State.after_mem_of_not_storedCell hready hc]
  | some c =>
    rw [State.after_mem_of_storedCell hc]
    exact Memory.wf_write hwf c _

/-- Bytes that lie below the top of memory carry the program counter to 256 at most (D1). -/
theorem pc_add_le {pc : PcWord} {n : Nat} (h : pc.toNat + n ≤ 256) : (pc + BitVec.ofNat 9 n).toNat ≤ 256 := by
  rw [BitVec.toNat_add, BitVec.toNat_ofNat]
  omega

theorem State.after_pc_le (hfits : s.pc.toNat + i.size ≤ 256) : (s.after i).pc.toNat ≤ 256 := by
  obtain hpc | ⟨k, hpc⟩ := s.after_pc i <;> rw [hpc]
  · exact pc_add_le hfits
  · rw [zext9_toNat]
    exact k.isLt.le

theorem inv_after (hinv : Inv s) (hfits : s.pc.toNat + i.size ≤ 256) (hready : stackFaults i s = false) :
    Inv (s.after i) where
  memCanonical := State.after_mem_wf hready hinv.memCanonical
  pcInRange := State.after_pc_le hfits
  faultHalts hfault := by
    rw [State.after_fault] at hfault
    simp [hinv.faultHalts hfault]
  faultShape := by rw [State.after_fault]; exact hinv.faultShape
  cyclesAreInstructions := by rw [State.after_cycles, State.after_icount, hinv.cyclesAreInstructions]
  depthRecorded := by
    have := hinv.depthRecorded
    rcases State.after_stack hready with ⟨_, hsp, hdepth⟩ | ⟨_, _, hdepth⟩ | ⟨_, hsp, hdepth⟩ <;> rw [hdepth]
    · rwa [hsp]
    · exact le_max_right _ _
    · omega
  depthBounded := by
    have := hinv.depthBounded
    rcases State.after_stack hready with ⟨_, _, hdepth⟩ | ⟨_, _, hdepth⟩ | ⟨_, _, hdepth⟩ <;> rw [hdepth]
    · assumption
    · omega
    · assumption
  noWarning := by rw [State.after_warn, hinv.noWarning]

/-- A fault entry leaves a well-formed record; the rest of the invariant is about fields it does not write. -/
theorem inv_faulted {n : Nat} {kind : FaultKind} {info : Byte} (hinv : Inv s)
    (hinfo : info = 0 ∨ kind = .unknownOpcode) (hfits : s.pc.toNat + n ≤ 256) : Inv (s.faulted n kind info) where
  memCanonical := hinv.memCanonical
  pcInRange := pc_add_le hfits
  faultHalts _ := rfl
  faultShape := by
    have hpc := hinv.pcInRange
    simp only [State.faulted, Option.all_some, faultRecordWellFormed, Bool.and_eq_true, Bool.or_eq_true,
      decide_eq_true_eq]
    exact ⟨hpc, hinfo.symm⟩
  cyclesAreInstructions := hinv.cyclesAreInstructions
  depthRecorded := hinv.depthRecorded
  depthBounded := hinv.depthBounded
  noWarning := hinv.noWarning

/-- Settles O32: either end of a step keeps the invariant. -/
theorem stepKeepsTheInvariant : Obligations.StepKeepsTheInvariant := by
  intro s t hinv h
  obtain ⟨i, hf, hready, rfl⟩ | ⟨kind, info, rfl, hinfo, hfits⟩ := step_completes_or_faults h
  · exact inv_after hinv (fetch_fits hf) hready
  · exact inv_faulted hinv hinfo (hfits hinv.pcInRange)

end Sys2Proof.Machine


/-! ## What a step depends on: the registers of control and the cells it reads (10_state.md R18; 20_memory.md R33) -/

namespace Sys2Proof.Machine

/-- Two states that a step from the first cannot tell apart where it fetches, checks the stack and asks whether to run:
`HALTED`, `PC`, `SP` and every cell it reads are the same. -/
structure AgreeForStep (s u : State) : Prop where
  halted : u.halted = s.halted
  pc : u.pc = s.pc
  sp : u.sp = s.sp
  reads : ∀ a : Byte, Access.read a ∈ accesses s → u.mem.read a = s.mem.read a

variable {i : Instr} {s u : State} {view : State → State}

theorem opcode_mem_accesses (hf : fetch s = .ok i) : Access.read (pcByte s.pc) ∈ accesses s := by
  rw [accesses_of_fetch hf]
  cases hfmt : i.opcode.format with
  | op => rw [fetchAccesses_op hfmt]; exact List.mem_cons_self
  | opk => rw [fetchAccesses_opk hfmt]; exact List.mem_cons_self

theorem operand_mem_accesses (hf : fetch s = .ok i) (hopk : i.opcode.format = .opk) :
    Access.read (pcByte (s.pc + 1)) ∈ accesses s := by
  rw [accesses_of_fetch hf, fetchAccesses_opk hopk]
  exact List.mem_cons_of_mem _ List.mem_cons_self

theorem AgreeForStep.opcode (hagree : AgreeForStep s u) (hmem : Access.read (pcByte s.pc) ∈ accesses s) :
    u.mem.read (pcByte u.pc) = s.mem.read (pcByte s.pc) := by
  rw [hagree.pc]
  exact hagree.reads _ hmem

/-- The fetch of either state ends in the same way. -/
theorem AgreeForStep.fetch_ends_alike (hagree : AgreeForStep s u) :
    (∃ i, fetch s = .ok i ∧ fetch u = .ok i) ∨
    ∃ n kind info, fetch s = .error (s.faulted n kind info) ∧ fetch u = .error (u.faulted n kind info) := by
  have hpc := hagree.pc
  rcases fetch_cases s with ⟨hout, hf⟩ | ⟨hle, ho, hf⟩ | ⟨o, htop, ho, hopk, hf⟩ | ⟨o, hle, ho, hop, hf⟩ |
    ⟨o, hlow, ho, hopk, hf⟩
  case inl =>
    refine .inr ⟨_, _, _, by rw [hf, raise_eq_faulted], ?_⟩
    rw [fetch_out (by rwa [hpc]), raise_eq_faulted]
  case inr.inl =>
    have hbyte := hagree.opcode (by simp [accesses_unknown hle ho])
    refine .inr ⟨_, _, _, by rw [hf, fetchByte_raise_eq_faulted], ?_⟩
    rw [fetch_unknown (by rwa [hpc]) (by rwa [hbyte]), fetchByte_raise_eq_faulted, hbyte]
  case inr.inr.inl =>
    have hbyte := hagree.opcode (by simp [accesses_missing htop ho hopk])
    refine .inr ⟨_, _, _, by rw [hf, fetchByte_raise_eq_faulted], ?_⟩
    rw [fetch_missing (by rwa [hpc]) (by rwa [hbyte]) hopk, fetchByte_raise_eq_faulted]
  case inr.inr.inr.inl =>
    have hbyte := hagree.opcode (opcode_mem_accesses hf)
    exact .inl ⟨_, hf, fetch_op (by rwa [hpc]) (by rwa [hbyte]) hop⟩
  case inr.inr.inr.inr =>
    have hbyte := hagree.opcode (opcode_mem_accesses hf)
    have hoperand := hagree.reads _ (operand_mem_accesses hf (by rwa [Opcode.opcode_withOperand]))
    refine .inl ⟨_, hf, ?_⟩
    rw [fetch_opk (by rwa [hpc]) (by rwa [hbyte]) hopk, hpc, hoperand]

theorem AgreeForStep.stackFaults_eq (hagree : AgreeForStep s u) (i : Instr) : stackFaults i u = stackFaults i s := by
  cases i <;> simp only [stackFaults, hagree.sp]

/-- Two agreeing states take steps that are the same under a view, if the states they leave are: after a fault,
and after every instruction that completes. -/
theorem AgreeForStep.sameOutcome (hagree : AgreeForStep s u)
    (hfaulted : ∀ n kind info, view (s.faulted n kind info) = view (u.faulted n kind info))
    (hafter : ∀ i, fetch s = .ok i → stackFaults i s = false → view (s.after i) = view (u.after i)) :
    SameOutcome view (step s) (step u) := by
  cases hrun : s.halted with
  | true =>
    rw [step_halted hrun, step_halted (hagree.halted.trans hrun)]
    exact rfl
  | false =>
    have hrun' := hagree.halted.trans hrun
    obtain ⟨i, hf, hf'⟩ | ⟨n, kind, info, hf, hf'⟩ := hagree.fetch_ends_alike
    · rw [step_exec hrun hf, step_exec hrun' hf']
      cases hs : stackFaults i s with
      | true =>
        rw [exec_faulted hs, exec_faulted ((hagree.stackFaults_eq i).trans hs)]
        exact hfaulted ..
      | false =>
        rw [exec_ready hs, exec_ready ((hagree.stackFaults_eq i).trans hs)]
        exact hafter i hf hs
    · rw [step_fault hrun hf, step_fault hrun' hf']
      exact hfaulted ..

/-! ### The counters -/

theorem dropCounters_faulted (n : Nat) (kind : FaultKind) (info : Byte) (s : State) :
    dropCounters (s.faulted n kind info) = dropCounters ((dropCounters s).faulted n kind info) := rfl

/-- No instruction computes anything but counters from a counter. -/
theorem dropCounters_after (i : Instr) (s : State) :
    dropCounters (s.after i) = dropCounters ((dropCounters s).after i) := by cases i <;> rfl

@[simp] theorem dropCounters_halted (s : State) : (dropCounters s).halted = s.halted := rfl
@[simp] theorem dropCounters_pc (s : State) : (dropCounters s).pc = s.pc := rfl
@[simp] theorem dropCounters_sp (s : State) : (dropCounters s).sp = s.sp := rfl
@[simp] theorem dropCounters_mem (s : State) : (dropCounters s).mem = s.mem := rfl

theorem agreeForStep_of_dropCounters (h : dropCounters s = dropCounters u) : AgreeForStep s u where
  halted := by simpa using congrArg State.halted h.symm
  pc := by simpa using congrArg State.pc h.symm
  sp := by simpa using congrArg State.sp h.symm
  reads a _ := by
    have hmem : u.mem = s.mem := by simpa using congrArg State.mem h.symm
    rw [hmem]

/-- Settles O39: states equal but for the counters agree for the step, and what it leaves takes no value from
a counter. -/
theorem countersNeverAffectTheRun : Obligations.CountersNeverAffectTheRun := by
  intro s u h
  refine (agreeForStep_of_dropCounters h).sameOutcome ?_ ?_
  · intro n kind info
    rw [dropCounters_faulted n kind info s, h, ← dropCounters_faulted n kind info u]
  · intro i _ _
    rw [dropCounters_after i s, h, ← dropCounters_after i u]

/-! ### The cells read -/

/-- An instruction's effect outside memory takes nothing from memory but the cells the table lists as read. -/
theorem dropMemory_after {m : Memory} (hready : stackFaults i s = false)
    (hreads : ∀ a : Byte, Access.read a ∈ dataAccesses i s → m.read a = s.mem.read a) :
    dropMemory (s.after i) = dropMemory (State.after i { s with mem := m }) := by
  cases i with
  | add k | sub k | mul k | loadm k =>
    have hcell := hreads k (by simp [dataAccesses])
    simp only [State.after, hcell]
    rfl
  | pop | ret =>
    have hcell := hreads (s.sp + 1) (by
      simp only [dataAccesses, if_neg (sp_ne_top_of_pops hready rfl)]
      exact List.mem_singleton.mpr rfl)
    simp only [State.after, hcell]
    rfl
  | _ => rfl

/-- Settles O40: with the listed cells the same the two states agree for the step, and its effect reads no
other cell. -/
theorem listedReadsDecideTheStep : Obligations.ListedReadsDecideTheStep := by
  intro s m hreads
  have hagree : AgreeForStep s { s with mem := m } := ⟨rfl, rfl, rfl, hreads⟩
  refine hagree.sameOutcome (fun _ _ _ => rfl) fun i hf hready => dropMemory_after hready ?_
  intro a ha
  exact hreads a (by rw [accesses_of_fetch hf]; exact List.mem_append_right _ ha)

end Sys2Proof.Machine


/-! ## Frames: what each of the fourteen instructions leaves alone (10_state.md R10 to R18; 20_memory.md R33) -/

namespace Sys2Proof.Machine

variable {i : Instr} {s t : State}

theorem eq_after_of_exec (hready : stackFaults i s = false) (h : exec i s = .next t) : t = s.after i := by
  rw [exec_ready hready] at h
  cases h
  rfl

theorem eq_faulted_of_exec (hfault : stackFaults i s = true) (h : exec i s = .next t) :
    t = s.faulted i.size (stackFaultKind i) 0 := by
  rw [exec_faulted hfault] at h
  cases h
  rfl

/-- Settles O28: the flag is computed from the accumulator where both are written, and elsewhere neither is. -/
theorem onlySixInstructionsUpdateTheFlag : Obligations.OnlySixInstructionsUpdateTheFlag := by
  intro i s t h
  cases hs : stackFaults i s with
  | true =>
    obtain rfl := eq_faulted_of_exec hs h
    exact ⟨fun _ hready => (by cases hready), fun _ => ⟨rfl, rfl⟩⟩
  | false =>
    obtain rfl := eq_after_of_exec hs h
    refine ⟨fun hi _ => ?_, fun hi => s.after_acc_of_not_updatesFlag (hi.resolve_right (by decide))⟩
    rw [s.after_flag hi, zeroFlag_iff]

theorem storedCell_of_stackFaults (hfault : stackFaults i s = true) : storedCell i s = none := by
  cases i with
  | push | call => exact if_pos (of_decide_eq_true hfault)
  | pop | ret => rfl
  | _ => cases hfault

/-- Settles O30: the only write is of the stored byte to the stored cell. -/
theorem memoryChangesOnlyAtTheStoredCell : Obligations.MemoryChangesOnlyAtTheStoredCell := by
  intro i s t h
  cases hs : stackFaults i s with
  | true =>
    obtain rfl := eq_faulted_of_exec hs h
    have hnone := storedCell_of_stackFaults hs
    exact ⟨fun c hc => absurd (hnone.symm.trans hc) (Option.some_ne_none c).symm, fun _ _ => rfl⟩
  | false =>
    obtain rfl := eq_after_of_exec hs h
    cases hc : storedCell i s with
    | none =>
      have hmem := State.after_mem_of_not_storedCell hs hc
      exact ⟨fun _ hsome => (by cases hsome), fun _ _ => by rw [hmem]⟩
    | some c =>
      have hmem := State.after_mem_of_storedCell hc
      refine ⟨?_, fun a ha => ?_⟩
      · rintro _ ⟨⟩
        rw [hmem, Memory.read_write_self]
      · have hne : a ≠ c := fun hac => ha (by rw [hac])
        rw [hmem, Memory.read_write, if_neg hne]

/-- Settles O31: one clause for each field of the completed state, and for a stack fault the state it leaves. -/
theorem registersChangeOnlyWhereNamed : Obligations.RegistersChangeOnlyWhereNamed := by
  intro i s t h
  cases hs : stackFaults i s with
  | true =>
    obtain rfl := eq_faulted_of_exec hs h
    exact ⟨fun _ => ⟨rfl, rfl⟩, fun _ => rfl, fun _ => ⟨rfl, rfl⟩, fun _ hready => (by cases hready),
      fun hready => (by cases hready), rfl⟩
  | false =>
    obtain rfl := eq_after_of_exec hs h
    refine ⟨?stack, ?pop, ?jumps, ?halted, fun _ => s.after_fault i, s.after_warn i⟩
    case stack => exact fun hi => s.after_sp_of_not_usesStack (hi.resolve_right (by decide))
    case pop =>
      intro hi
      have hpop : pops i = true := pops_iff.mpr (by simpa using hi)
      exact (s.after_sp_of_pops hpop).2
    case jumps =>
      intro hi
      have hno := hi.resolve_right (by decide)
      refine s.after_jumps_of_not_countsJump (Bool.eq_false_iff.mpr fun hjump => ?_)
      obtain ⟨k, hk⟩ := countsJump_iff.mp hjump
      obtain ⟨hjmp, hjmpz, hcall⟩ := hno k
      exact hk.elim hjmp (Or.elim · hjmpz hcall)
    case halted =>
      intro hi _
      rw [s.after_halted, if_neg hi]

end Sys2Proof.Machine


/-! ## Whole-machine rules: flag, faults, halting, stack pointer, counters (10_state.md R13 to R18; 40_cycle.md R74) -/

namespace Sys2Proof.Machine

variable {i : Instr} {s t : State}

theorem flagAgrees_after_of_updatesFlag (hi : updatesFlag i = true) : FlagAgrees (s.after i) := by
  rw [FlagAgrees, s.after_flag hi, zeroFlag_iff]

theorem flagAgrees_after (hflag : FlagAgrees s) (i : Instr) : FlagAgrees (s.after i) := by
  cases hi : updatesFlag i with
  | true => exact flagAgrees_after_of_updatesFlag hi
  | false =>
    obtain ⟨hz, hacc⟩ := s.after_acc_of_not_updatesFlag hi
    rwa [FlagAgrees, hz, hacc]

/-- Settles O33: an instruction writes flag and accumulator together or neither, and a fault writes neither. -/
theorem stepKeepsFlagAgreement : Obligations.StepKeepsFlagAgreement := by
  intro s t hflag h
  obtain ⟨i, _, _, rfl⟩ | ⟨_, _, rfl, _⟩ := step_completes_or_faults h
  · exact flagAgrees_after hflag i
  · exact hflag

/-- An instruction that completes leaves no fault where there was none. -/
theorem Completes.fault_eq_none (hc : Completes i s t) (hnone : s.fault = none) : t.fault = none := by
  obtain ⟨_, _, rfl⟩ := hc
  rw [s.after_fault, hnone]

/-- Settles O35: the step did not complete an instruction, and a fault entry writes nothing else. -/
theorem faultsArePrecise : Obligations.FaultsArePrecise := by
  intro s t hnone h hfault
  obtain ⟨i, hc⟩ | ⟨kind, info, rfl, _⟩ := step_completes_or_faults h
  · exact absurd (hc.fault_eq_none hnone) hfault
  · exact ⟨rfl, ⟨kind, info, rfl⟩, rfl, rfl, rfl, rfl, rfl, rfl, rfl, rfl, rfl, rfl⟩

/-- Settles O36: of the instructions that complete only HALT sets `HALTED`, and its opcode is the byte fetched. -/
theorem onlyHaltAndFaultsHalt : Obligations.OnlyHaltAndFaultsHalt := by
  intro s t hnone h hhalted
  obtain ⟨i, hc⟩ | ⟨_, _, rfl, _⟩ := step_completes_or_faults h
  · have hclean := hc.fault_eq_none hnone
    obtain ⟨hf, _, rfl⟩ := hc
    have hi : i = .halt := by
      by_contra hne
      rw [s.after_halted, if_neg hne, (step_cases h).1] at hhalted
      cases hhalted
    obtain ⟨hpc, hop⟩ := fetch_opcode hf
    exact .inr ⟨hpc, by rw [hop, hi]; rfl, hhalted, hclean⟩
  · exact .inl ⟨rfl, Option.some_ne_none _⟩

/-- Settles O37: the three ways `State.after_stack` lists, and a fault leaves `SP` alone. -/
theorem stackPointerMovesByOne : Obligations.StackPointerMovesByOne := by
  intro s t h
  obtain ⟨i, hf, hready, rfl⟩ | ⟨_, _, rfl, _⟩ := step_completes_or_faults h
  · obtain ⟨_, hsp, _⟩ | ⟨hpush, hsp, _⟩ | ⟨hpop, hsp, _⟩ := State.after_stack hready
    · exact .inl hsp
    · obtain rfl | ⟨k, rfl⟩ := pushes_iff.mp hpush
      · exact .inr (.inl ⟨hsp, .inl hf⟩)
      · exact .inr (.inl ⟨hsp, .inr ⟨k, hf⟩⟩)
    · obtain rfl | rfl := pops_iff.mp hpop
      · exact .inr (.inr ⟨hsp, .inl hf⟩)
      · exact .inr (.inr ⟨hsp, .inr hf⟩)
  · exact .inl rfl

theorem State.le_after_maxdepth (hready : stackFaults i s = false) : s.maxdepth ≤ (s.after i).maxdepth := by
  obtain ⟨_, _, hdepth⟩ | ⟨_, _, hdepth⟩ | ⟨_, _, hdepth⟩ := State.after_stack hready <;> rw [hdepth]
  exact le_max_left _ _

theorem step_macc (h : step s = .next t) : t.macc = s.macc + (accesses s).length := by
  obtain ⟨i, hf, hready, rfl⟩ | ⟨_, _, rfl, _⟩ := step_completes_or_faults h
  · rw [State.after_macc hready, accesses_of_fetch hf]
  · rfl

/-- Settles O38: the two ends of a step differ in what they count. -/
theorem stepsAreCounted : Obligations.StepsAreCounted := by
  intro s t hnone h
  have hmacc : s.macc ≤ t.macc := by rw [step_macc h]; exact Nat.le_add_right _ _
  obtain ⟨i, hc⟩ | ⟨_, _, rfl, _⟩ := step_completes_or_faults h
  · have hclean := hc.fault_eq_none hnone
    obtain ⟨_, hready, rfl⟩ := hc
    exact ⟨fun _ => ⟨s.after_icount i, s.after_cycles i⟩, fun hfault => absurd hclean hfault, hmacc, s.le_after_jt i,
      s.le_after_jnt i, State.le_after_maxdepth hready⟩
  · exact ⟨fun hclean => absurd hclean (Option.some_ne_none _), fun _ => ⟨rfl, rfl⟩, hmacc, le_refl _, le_refl _,
      le_refl _⟩

/-- The table lists at most two fetches and one access of the effect. -/
theorem length_accesses_le (s : State) : (accesses s).length ≤ 3 := by
  cases hf : fetch s with
  | ok i =>
    rw [accesses_of_fetch hf, List.length_append, length_fetchAccesses]
    exact Nat.add_le_add (size_le_two i) (length_dataAccesses_le i s)
  | error t =>
    rw [accesses]
    split
    · rename_i hdecode
      rw [fetch_of_decode hdecode] at hf
      cases hf
    all_goals simp

theorem write_mem_dataAccesses {c : Byte} (hc : storedCell i s = some c) : Access.write c ∈ dataAccesses i s := by
  cases i with
  | store => cases hc; exact List.mem_cons_self
  | push | call =>
    have hsp := sp_ne_zero_of_storedCell rfl hc
    rw [storedCell_of_pushes hsp rfl] at hc
    cases hc
    simp only [dataAccesses, if_neg hsp]
    exact List.mem_cons_self
  | _ => cases hc

/-- Settles O41: a completed step writes the stored cell alone, which the table lists; a faulting one writes
nothing. -/
theorem stepMakesTheListedAccesses : Obligations.StepMakesTheListedAccesses := by
  intro s t h
  refine ⟨step_macc h, length_accesses_le s, fun a ha => ?_⟩
  obtain ⟨i, hf, hready, rfl⟩ | ⟨_, _, rfl, _⟩ := step_completes_or_faults h
  · refine (memoryChangesOnlyAtTheStoredCell i s _ (exec_ready hready)).2 a fun hc => ha ?_
    rw [accesses_of_fetch hf]
    exact List.mem_append_right _ (write_mem_dataAccesses hc)
  · rfl

end Sys2Proof.Machine


/-! ## Reset, boot and runs (70_reset_and_hazards.md R150, R152; 40_cycle.md R76) -/

namespace Sys2Proof.Machine

variable {s : State}

/-- Settles O1: each conjunct is a field of the state that reset builds. -/
theorem resetLeavesTheseValues : Obligations.ResetLeavesTheseValues :=
  ⟨fun a z s => ⟨s.applyReset_acc a z, s.applyReset_pc a z, s.applyReset_sp a z, s.applyReset_z a z,
      s.applyReset_halted a z, s.applyReset_fault a z, s.applyReset_warn a z, rfl, s.applyReset_mem a z⟩,
    rfl, Memory.read_nil⟩

theorem imageWellFormed_iff (image : List Byte) : imageWellFormed image = true ↔ image.length ≤ 256 := by
  simp [imageWellFormed, Config.loadOrigin, Config.memSize]

theorem boot_eq_some_iff {a : Byte} {z : Bool} {image : List Byte} :
    boot a z image = some s ↔
      image.length ≤ 256 ∧ s = State.resetWith a z (Memory.ofBytes Config.loadOrigin image) := by
  rw [boot, Option.ite_none_right_eq_some, imageWellFormed_iff, Option.some_inj, eq_comm (b := s)]

/-- Settles O2: the load places byte `n` at address `0 + n`. -/
theorem bootPlacesTheImage : Obligations.BootPlacesTheImage := by
  intro a z image
  refine ⟨fun hlen => ⟨_, boot_eq_some_iff.mpr ⟨hlen, rfl⟩, rfl, fun addr => ?_⟩, fun hlen => ?_⟩
  · have hcell := Memory.lookup_ofBytes Config.loadOrigin addr.toNat image
    rwa [Config.loadOrigin, Nat.zero_add] at hcell
  · rw [Option.eq_none_iff_forall_ne_some]
    intro s hboot
    exact absurd (boot_eq_some_iff.mp hboot).1 (Nat.not_le.mpr hlen)

/-- Reset leaves the invariant over any memory in canonical form. -/
theorem inv_resetWith (a : Byte) (z : Bool) {m : Memory} (hwf : m.wf = true) : Inv (State.resetWith a z m) where
  memCanonical := hwf
  pcInRange := Nat.zero_le 256
  faultHalts hfault := absurd rfl hfault
  faultShape := rfl
  cyclesAreInstructions := rfl
  depthRecorded := le_refl 0
  depthBounded := Nat.zero_le 255
  noWarning := rfl

theorem inv_of_boot {a : Byte} {z : Bool} {image : List Byte} (hboot : boot a z image = some s) : Inv s := by
  obtain ⟨hlen, rfl⟩ := boot_eq_some_iff.mp hboot
  exact inv_resetWith a z (Memory.wfFrom_ofBytes _ image ((Nat.zero_add _).trans_le hlen))

/-- Settles O3: in all three the memory is in canonical form. -/
theorem invariantHoldsAfterReset : Obligations.InvariantHoldsAfterReset :=
  ⟨inv_resetWith _ _ Memory.wf_nil, fun _ _ _ _ hboot => inv_of_boot hboot,
    fun a z _ hinv => inv_resetWith a z hinv.memCanonical⟩

/-- Settles O42: a halted engine has no step, so the rest of the run stays where it is. -/
theorem haltedRunsStayAsTheyAre : Obligations.HaltedRunsStayAsTheyAre := by
  intro m n s hhalted
  rw [runFor_add]
  exact runFor_stays (fun t ht => by rw [step_halted hhalted] at ht; cases ht) n

theorem runFor_one {t : State} (h : step s = .next t) : runFor 1 s = t := by
  simp only [runFor, h]

/-- Settles O34: both clauses by the induction over a run, the second from the step that executed the instruction. -/
theorem reachableStatesMeetTheInvariants : Obligations.ReachableStatesMeetTheInvariants := by
  intro a z image s hboot n
  refine ⟨runFor_keeps stepKeepsTheInvariant n (inv_of_boot hboot), ?_⟩
  intro j i hj hrun hf hi hready
  have hstep : step (runFor j s) = .next ((runFor j s).after i) := by rw [step_exec hrun hf, exec_ready hready]
  obtain ⟨rest, rfl⟩ := Nat.exists_eq_add_of_lt hj
  rw [Nat.add_assoc, runFor_add, Nat.add_comm, runFor_add, runFor_one hstep]
  exact runFor_keeps stepKeepsFlagAgreement rest (flagAgrees_after_of_updatesFlag hi)

end Sys2Proof.Machine


/-! ## Control and stack, one instruction at a time (43_control.md R101 to R103; 44_stack_call.md R110 to R113) -/

namespace Sys2Proof.Machine

variable {s : State}

/-- Settles O19: the operand is a code address as it stands. -/
theorem jumpGoesToTheOperand : Obligations.JumpGoesToTheOperand :=
  ⟨fun k s => ⟨_, exec_jmp s k, zext9_toNat k, rfl, rfl, rfl, rfl, rfl, ⟨rfl, rfl, rfl⟩, fun _ => rfl⟩,
    operandFetchFaults_code (o := .jmp) rfl⟩

/-- Settles O20: the flag chooses the program counter and the counter, and nothing else depends on it. -/
theorem jumpIfZeroTestsTheFlag : Obligations.JumpIfZeroTestsTheFlag := by
  refine ⟨fun k s => ⟨_, exec_jmpz_after k, ?taken, ?untaken, rfl, rfl, rfl, ⟨rfl, rfl, rfl⟩, fun _ => rfl⟩,
    ?exception⟩
  case taken =>
    intro hz
    rw [State.after_jmpz_pc, State.after_jmpz_jt, State.after_jmpz_jnt, if_pos hz, if_pos hz, if_pos hz]
    exact ⟨zext9_toNat k, rfl, rfl⟩
  case untaken =>
    intro hz
    have hz' : ¬ s.z = true := (Bool.not_eq_true s.z).mpr hz
    rw [State.after_jmpz_pc, State.after_jmpz_jt, State.after_jmpz_jnt, if_neg hz', if_neg hz', if_neg hz']
    exact ⟨rfl, rfl, rfl⟩
  case exception => exact operandFetchFaults_code (o := .jmpz) rfl

/-- Settles O21: HALT sets `HALTED` over the fetch and the completion. -/
theorem haltEndsTheRun : Obligations.HaltEndsTheRun :=
  fun s => ⟨_, exec_halt s, rfl, rfl, rfl, rfl, rfl, rfl, rfl, fun _ => rfl, rfl, rfl⟩

/-- A write shows in no other cell. -/
theorem memoryUnchangedExcept_of_write {t : State} {c v : Byte} (hmem : t.mem = s.mem.write c v) :
    MemoryUnchangedExcept c s t := by
  intro a ha
  rw [hmem, Memory.read_write, if_neg ha]

/-- Settles O22: with room the cell is the one `SP` names (D5), and `SP` does not wrap. -/
theorem pushStoresTheAccumulator : Obligations.PushStoresTheAccumulator := by
  intro s hsp
  exact ⟨_, exec_push hsp, Memory.read_write_self .., memoryUnchangedExcept_of_write rfl, sp_pred hsp, rfl, rfl, rfl,
    rfl, rfl, rfl, rfl⟩

/-- Settles O23: with an entry the cell is the one above `SP` (D5), and `SP` does not wrap. -/
theorem popLoadsTheAccumulator : Obligations.PopLoadsTheAccumulator := by
  intro s hsp
  exact ⟨_, exec_pop hsp, sp_succ hsp, rfl, zeroFlag_iff _, rfl, ⟨rfl, rfl, rfl⟩, fun _ => rfl⟩

/-- The byte CALL pushes (D10). -/
theorem pcByte_add_two_toNat (pc : PcWord) : (pcByte (pc + 2)).toNat = (pc.toNat + 2) % 256 := by
  rw [pcByte_toNat, BitVec.toNat_add]
  exact Nat.mod_mod_of_dvd _ (by decide)

/-- Settles O24: the push is of the address after both bytes, the jump goes to the operand. -/
theorem callPushesTheReturnAddress : Obligations.CallPushesTheReturnAddress := by
  refine ⟨fun k s hsp => ⟨_, exec_call_after hsp k, ?cell, memoryUnchangedExcept_of_write rfl, sp_pred hsp, rfl,
    zext9_toNat k, rfl, rfl, rfl, rfl, rfl, rfl, rfl⟩, operandFetchFaults_code (o := .call) rfl⟩
  case cell =>
    have hcell : (s.after (.call k)).mem.read s.sp = pcByte (s.pc + 2) := Memory.read_write_self ..
    rw [hcell, pcByte_add_two_toNat]

/-- Settles O25: the byte popped is a code address as it stands. -/
theorem returnPopsTheProgramCounter : Obligations.ReturnPopsTheProgramCounter := by
  intro s hsp
  exact ⟨_, exec_ret hsp, sp_succ hsp, zext9_toNat _, rfl, rfl, rfl, rfl, ⟨rfl, rfl, rfl⟩, fun _ => rfl⟩

/-- Settles O26: the check comes after the fetches and before the push. -/
theorem pushAndCallOverflow : Obligations.PushAndCallOverflow := by
  intro k s hsp
  refine ⟨exec_push_full hsp, ?_⟩
  rw [exec_call_full hsp, fetchOpk_raise_eq_faulted]
  rfl

/-- Settles O27: the check comes after the fetch and before the pop. -/
theorem popAndReturnUnderflow : Obligations.PopAndReturnUnderflow :=
  fun _ hsp => ⟨exec_pop_empty hsp, exec_ret_empty hsp⟩

end Sys2Proof.Machine


/-! ## Laws between instructions (95_test_vectors.md S5 to S7; 20_memory.md R42) -/

namespace Sys2Proof.Machine

variable {s t : State}

/-- A pointer that has gone down is below 255, so the entry just pushed can be popped. -/
theorem sp_pred_ne_top {sp : Byte} (h : sp ≠ 0) : sp - 1 ≠ 255 := by
  intro htop
  have hpred := sp_pred h
  have hlt := sp.isLt
  have htop' : (sp - 1).toNat = 255 := by rw [htop]; rfl
  omega

/-- The cell a pop reads is the one the push before it wrote, in either order (R78, R79). -/
theorem popCell_pred (pre : Bool) (sp : Byte) : popCell pre (sp - 1) = pushCell pre sp := by
  cases pre with
  | true => rfl
  | false => exact sub_add_cancel sp 1

/-- A push that succeeds moves `SP` down and leaves its byte in its cell. -/
theorem pushWith_ok {pre : Bool} {v : Byte} {s s1 : State} (hpush : s.pushWith pre v = .ok s1) :
    s.sp ≠ 0 ∧ s1.sp = s.sp - 1 ∧ s1.acc = s.acc ∧ s1.mem.read (pushCell pre s.sp) = v := by
  by_cases hsp : s.sp = 0
  · rw [State.pushWith_empty hsp] at hpush
    cases hpush
  · rw [State.pushWith_room hsp] at hpush
    cases hpush
    exact ⟨hsp, rfl, rfl, Memory.read_write_self ..⟩

theorem popWith_pushWith {pre : Bool} {v : Byte} {s s1 : State} (hpush : s.pushWith pre v = .ok s1) :
    ∃ s2, s1.popWith pre = .ok (v, s2) ∧ s2.sp = s.sp ∧ s2.acc = s.acc ∧ s2.mem = s1.mem := by
  obtain ⟨hsp, hsp1, hacc, hcell⟩ := pushWith_ok hpush
  have hpop : s1.popWith pre = _ := State.popWith_entry (by rw [hsp1]; exact sp_pred_ne_top hsp)
  rw [hsp1, popCell_pred, hcell] at hpop
  exact ⟨_, hpop, sub_add_cancel s.sp 1, hacc, rfl⟩

/-- Settles O43: the pop reads the cell the push wrote, for PUSH and POP as for the two operations. -/
theorem pushThenPopRestores : Obligations.PushThenPopRestores := by
  refine ⟨fun _ _ _ _ => popWith_pushWith, fun s t hsp hpush => ?_⟩
  rw [exec_push hsp] at hpush
  cases hpush
  have hpop : exec .pop (s.after .push) = .next ((s.after .push).after .pop) := exec_pop (sp_pred_ne_top hsp)
  have hacc : ((s.after .push).after .pop).acc = s.acc := by
    show (s.mem.write s.sp s.acc).read (s.sp - 1 + 1) = s.acc
    rw [sub_add_cancel, Memory.read_write_self]
  exact ⟨_, hpop, hacc, sub_add_cancel s.sp 1, by rw [State.after_flag _ rfl, zeroFlag_iff, hacc]⟩

/-- Settles O44: the cell above the `SP` that CALL left holds the byte it pushed. -/
theorem callThenReturnContinuesAfterTheCall : Obligations.CallThenReturnContinuesAfterTheCall := by
  intro k s t u hsp hcall husp hucell
  rw [exec_call_after hsp] at hcall
  cases hcall
  have husp' : u.sp = s.sp - 1 := husp
  have hcell : u.mem.read (u.sp + 1) = pcByte (s.pc + 2) := by
    rw [husp', sub_add_cancel]
    exact hucell.trans (Memory.read_write_self ..)
  refine ⟨_, exec_ret (by rw [husp']; exact sp_pred_ne_top hsp), ?_, ?_⟩
  · show u.sp + 1 = s.sp
    rw [husp', sub_add_cancel]
  · show (zext9 (u.mem.read (u.sp + 1))).toNat = _
    rw [zext9_toNat, hcell, pcByte_add_two_toNat]

/-- Settles O45: the flag JMPZ tests is the one LOADI computed from its operand. -/
theorem jumpIfZeroFollowsLoadImmediate : Obligations.JumpIfZeroFollowsLoadImmediate := by
  intro v k s t hload
  rw [exec_loadi] at hload
  cases hload
  have hz : (s.fetchOpk.writeAcc v).complete.z = zeroFlag v := rfl
  refine ⟨_, exec_jmpz_after k, fun hv => ?_, fun hv => ?_⟩
  · rw [State.after_jmpz_pc, hz, if_pos ((zeroFlag_iff v).mpr hv), zext9_toNat]
  · rw [State.after_jmpz_pc, hz, if_neg (mt (zeroFlag_iff v).mp hv)]
    show s.pc + 1 + 1 + 2 = s.pc + 4
    rw [pc_add_two, BitVec.add_assoc]
    rfl

/-- An instruction encoded in one byte has that byte for its opcode and no operand. -/
theorem opcode_of_encode_singleton {j : Instr} {b : Byte} (h : encode j = [b]) :
    j.opcode.format = .op ∧ j.opcode.code = b := by
  cases hf : j.opcode.format with
  | op =>
    rw [encode_op hf] at h
    exact ⟨rfl, List.singleton_injective h⟩
  | opk =>
    obtain ⟨k, hk, _⟩ := encode_opk hf
    rw [hk] at h
    cases h

/-- Settles O46: the next fetch finds the stored byte, which is the opcode. -/
theorem storedByteIsFetchedAtOnce : Obligations.StoredByteIsFetchedAtOnce := by
  intro i j s t c hexec hc hrun hpc hencode
  obtain ⟨hf, hcode⟩ := opcode_of_encode_singleton hencode
  have hcell : t.mem.read c = storedByte i s := (memoryChangesOnlyAtTheStoredCell i s t hexec).1 c hc
  have hle : t.pc.toNat ≤ 255 := by
    rw [hpc, zext9_toNat]
    exact Nat.le_of_lt_succ c.isLt
  exact step_exec hrun (fetch_encoded_op hle hf (by rw [hpc, pcByte_zext9, hcell, hcode]))

end Sys2Proof.Machine


/-! ## Memory, policy, ports (20_memory.md R31; 10_state.md R20, R22; 60_exceptions.md R126, R127) -/

namespace Sys2Proof.Machine

/-- Settles O47: a read is of one cell and a write of one cell, each counted. -/
theorem memoryPrimitivesReadAndWriteOneCell : Obligations.MemoryPrimitivesReadAndWriteOneCell :=
  fun s a v => ⟨rfl, Memory.read_write_self s.mem a v, State.memWrite_unchangedExcept a v s, rfl,
    fun hwf => Memory.wf_write hwf a v⟩

theorem Memory.lookup_head_ne {lo a : Nat} {v : Byte} {m : Memory} (hwf : Memory.wfFrom lo ((a, v) :: m) = true) :
    Memory.lookup ((a, v) :: m) a ≠ Config.unwrittenByte := by
  rw [Memory.lookup, if_pos rfl]
  exact ((Memory.wfFrom_cons ..).mp hwf).2.2.1

/-- The lowest address that reads as written is the head of the list, so it is no higher in an image that
reads the same. -/
theorem Memory.le_head_of_lookup_eq {lo a b : Nat} {v w : Byte} {m n : Memory}
    (hm : Memory.wfFrom lo ((a, v) :: m) = true) (hn : Memory.wfFrom lo ((b, w) :: n) = true)
    (heq : ∀ x, Memory.lookup ((a, v) :: m) x = Memory.lookup ((b, w) :: n) x) : b ≤ a := by
  by_contra hlt
  have hn' : Memory.wfFrom b ((b, w) :: n) = true := by
    rw [Memory.wfFrom_cons] at hn ⊢
    exact ⟨le_refl b, hn.2⟩
  exact Memory.lookup_head_ne hm ((heq a).trans (Memory.lookup_below hn' (Nat.lt_of_not_le hlt)))

/-- Beyond the first entry the rest of the image decides. -/
theorem Memory.lookup_tail_eq {a : Nat} {v w : Byte} {m n : Memory} (hm : Memory.wfFrom (a + 1) m = true)
    (hn : Memory.wfFrom (a + 1) n = true)
    (heq : ∀ x, Memory.lookup ((a, v) :: m) x = Memory.lookup ((a, w) :: n) x) (x : Nat) :
    Memory.lookup m x = Memory.lookup n x := by
  by_cases hx : x = a
  · have hlt : x < a + 1 := by omega
    rw [Memory.lookup_below hm hlt, Memory.lookup_below hn hlt]
  · have h := heq x
    rwa [Memory.lookup, if_neg hx, Memory.lookup, if_neg hx] at h

/-- Two images in canonical form whose addresses all read the same agree entry by entry. -/
theorem Memory.eq_of_lookup_eq {lo : Nat} {m n : Memory} (hm : Memory.wfFrom lo m = true)
    (hn : Memory.wfFrom lo n = true) (heq : ∀ x, Memory.lookup m x = Memory.lookup n x) : m = n := by
  induction m generalizing lo n with
  | nil =>
    cases n with
    | nil => rfl
    | cons d n => exact absurd (heq d.1).symm (Memory.lookup_head_ne hn)
  | cons c m ih =>
    cases n with
    | nil => exact absurd (heq c.1) (Memory.lookup_head_ne hm)
    | cons d n =>
      obtain ⟨a, v⟩ := c
      obtain ⟨b, w⟩ := d
      have hab : a = b :=
        le_antisymm (Memory.le_head_of_lookup_eq hn hm fun x => (heq x).symm) (Memory.le_head_of_lookup_eq hm hn heq)
      subst hab
      have hvw : v = w := by
        have h := heq a
        rwa [Memory.lookup, if_pos rfl, Memory.lookup, if_pos rfl] at h
      obtain ⟨_, _, _, hm⟩ := (Memory.wfFrom_cons ..).mp hm
      obtain ⟨_, _, _, hn⟩ := (Memory.wfFrom_cons ..).mp hn
      rw [hvw, ih hm hn (Memory.lookup_tail_eq hm hn heq)]

/-- Settles O48: every cell is a byte's address, and above the cells nothing is listed. -/
theorem canonicalMemoriesWithEqualReadsAreEqual : Obligations.CanonicalMemoriesWithEqualReadsAreEqual := by
  intro m n hm hn hread
  refine Memory.eq_of_lookup_eq hm hn fun x => ?_
  by_cases hx : x < Config.memSize
  · have hcell : (BitVec.ofNat 8 x).toNat = x := Nat.mod_eq_of_lt hx
    have h := hread (BitVec.ofNat 8 x)
    rwa [Memory.read, Memory.read, hcell] at h
  · have hx' : Config.memSize ≤ x := Nat.le_of_not_lt hx
    rw [Memory.lookup_above hm hx', Memory.lookup_above hn hx']

/-- Settles O49: the four operations take the branch of an operand out of range, which no operand is with 256 cells. -/
theorem outOfRangeOperandsDegrade : Obligations.OutOfRangeOperandsDegrade := by
  refine ⟨fun memSize pc0 k v s hk => ?_, operandInRange_memSize⟩
  have hout : ¬ operandInRange memSize k = true := fun h => Nat.not_lt.mpr hk (of_decide_eq_true h)
  exact ⟨if_neg hout, if_neg hout, if_neg hout, if_neg hout⟩

/-- Settles O50: the wires are fields of the state, and `fault_kind` the number of the record's kind. -/
theorem portsShowTheState : Obligations.PortsShowTheState := by
  intro s
  refine ⟨rfl, rfl, rfl, rfl, rfl, fun hnone => ?_, fun r hr => ?_⟩
  · rw [State.ports, hnone]
    rfl
  · have hkind : s.ports.faultKind = r.kind.code := by rw [State.ports, hr]; rfl
    rw [hkind]
    refine ⟨by rw [State.ports, hr]; rfl, by rw [State.ports, hr]; rfl, ?_, ?_, ?_, ?_⟩ <;>
      exact fun hk => congrArg FaultKind.code hk

end Sys2Proof.Machine


/-! ## Toolchain: the memory file and the assembler (30_encoding.md R61 to R67) -/

namespace Sys2Proof.Machine

/-! ### The encoded memory file -/

/-- The digit of a bit (R66). -/
def bitDigit (b : Bool) : Char := if b then '1' else '0'

/-- The value of bits read from the most significant, after the value `acc`. -/
def bitsValue (acc : Nat) (bits : List Bool) : Nat := bits.foldl (fun value b => value * 2 + b.toNat) acc

/-- The bits of a byte, the most significant first. -/
def byteBits (b : Byte) : List Bool := (List.range 8).map b.getMsbD

theorem printByte_eq (b : Byte) : printByte b = (byteBits b).map bitDigit := by
  rw [byteBits, List.map_map]
  rfl

theorem digitValue_bitDigit (b : Bool) : digitValue (bitDigit b) = some b.toNat := by cases b <;> decide

theorem parseDigits_bits (acc : Nat) (bits : List Bool) :
    parseDigits 2 acc (bits.map bitDigit) = some (bitsValue acc bits) := by
  induction bits generalizing acc with
  | nil => rfl
  | cons b bits ih =>
    rw [List.map_cons, parseDigits, digitValue_bitDigit]
    simp only [if_pos b.toNat_lt]
    exact ih _

theorem bitsValue_byteBits (b : Byte) : bitsValue 0 (byteBits b) = b.toNat := by revert b; decide

theorem parseNumber_printByte (b : Byte) : parseNumber 2 (printByte b) = some b.toNat := by
  rw [printByte_eq, parseNumber, parseDigits_bits, bitsValue_byteBits]
  rfl

theorem printByte_all_binary (b : Byte) : (printByte b).all (fun c => c == '0' || c == '1') = true := by
  rw [printByte_eq, List.all_map, List.all_eq_true]
  intro bit _
  cases bit <;> rfl

/-- The loader takes a printed byte for binary digits, and reads the byte back. -/
theorem loadLine_printByte (b : Byte) : loadLine (printByte b) = some b := by
  unfold loadLine
  rw [if_pos (printByte_all_binary b), parseNumber_printByte]
  simp only [if_pos b.isLt, BitVec.ofNat_toNat, BitVec.setWidth_eq]

/-- Settles O52, line by line. -/
theorem encodedFileLoadsBack : Obligations.EncodedFileLoadsBack := by
  intro image
  induction image with
  | nil => rfl
  | cons b image ih =>
    rw [printImage] at ih ⊢
    rw [List.map_cons, loadImage, loadLine_printByte, ih]

/-! ### The assembler -/

/-- The line says an instruction. -/
def saysInstruction : Option SourceLine → Bool
  | some (.instruction _ _) => true
  | some (.label _) | none => false

theorem isInstructionLine_iff (raw : List Char) :
    isInstructionLine raw = true ↔
      ¬ (trim (stripComment raw)).isEmpty = true ∧ ¬ (trim (stripComment raw)).getLast? = some ':' := by
  simp [isInstructionLine]

/-- A line that parses says an instruction exactly when it is neither blank nor a label line (R59, R60). -/
theorem isInstructionLine_of_parseLine {number : Nat} {raw : List Char} {line : Option SourceLine}
    (h : parseLine number raw = .ok line) : isInstructionLine raw = saysInstruction line := by
  unfold parseLine at h
  by_cases hblank : (trim (stripComment raw)).isEmpty = true
  · rw [if_pos hblank] at h
    cases h
    exact Bool.eq_false_iff.mpr fun hi => ((isInstructionLine_iff raw).mp hi).1 hblank
  rw [if_neg hblank] at h
  by_cases hcolon : (trim (stripComment raw)).getLast? = some ':'
  · rw [if_pos hcolon] at h
    have hno : isInstructionLine raw = false :=
      Bool.eq_false_iff.mpr fun hi => ((isInstructionLine_iff raw).mp hi).2 hcolon
    dsimp only at h
    split at h <;> cases h
    exact hno
  · rw [if_neg hcolon] at h
    have hyes : isInstructionLine raw = true := (isInstructionLine_iff raw).mpr ⟨hblank, hcolon⟩
    split at h
    · cases h
    split at h
    · cases h
    split at h <;> cases h <;> exact hyes

theorem length_filter_cons (raw : List Char) (rest : List (List Char)) :
    ((raw :: rest).filter isInstructionLine).length =
      (isInstructionLine raw).toNat + (rest.filter isInstructionLine).length := by
  cases h : isInstructionLine raw <;> simp [h, Nat.add_comm]

/-- Pass 1 leaves one pending instruction for each instruction line. -/
theorem length_pending {lines : List (List Char)} {number addr : Nat} {labels table : LabelTable}
    {pending : List Pending} (h : pass1 lines number addr labels = .ok (table, pending)) :
    pending.length = (lines.filter isInstructionLine).length := by
  induction lines generalizing number addr labels table pending with
  | nil => cases h; rfl
  | cons raw rest ih =>
    rw [pass1] at h
    cases hline : parseLine number raw with
    | error e => rw [hline] at h; cases h
    | ok line =>
      rw [hline] at h
      rw [length_filter_cons, isInstructionLine_of_parseLine hline]
      match line with
      | none => rw [ih h]; exact (Nat.zero_add _).symm
      | some (.label name) =>
        dsimp only at h
        split at h
        · cases h
        · rw [ih h]; exact (Nat.zero_add _).symm
      | some (.instruction o x) =>
        dsimp only at h
        split at h <;> cases h
        rename_i hrest
        rw [List.length_cons, ih hrest, Nat.add_comm]
        rfl

theorem emit_ok {labels : LabelTable} {p : Pending} {bytes : List Byte} (h : emit labels p = .ok bytes) :
    ∃ i, bytes = encode i := by
  unfold emit at h
  split at h
  · cases h; exact ⟨_, rfl⟩
  · split at h <;> cases h
    exact ⟨_, rfl⟩

/-- Pass 2 emits one encoding for each pending instruction. -/
theorem pass2_ok {labels : LabelTable} {pending : List Pending} {image : List Byte}
    (h : pass2 labels pending = .ok image) :
    ∃ program : List Instr, program.length = pending.length ∧ image = program.flatMap encode := by
  induction pending generalizing image with
  | nil => cases h; exact ⟨[], rfl, rfl⟩
  | cons p pending ih =>
    rw [pass2] at h
    split at h <;> cases h
    rename_i hemit hrest
    obtain ⟨i, rfl⟩ := emit_ok hemit
    obtain ⟨program, hlen, rfl⟩ := ih hrest
    exact ⟨i :: program, by rw [List.length_cons, List.length_cons, hlen], List.flatMap_cons.symm⟩

theorem length_encode (i : Instr) : (encode i).length = i.size := by
  rw [Instr.size]
  cases hf : i.opcode.format with
  | op => rw [encode_op hf]; rfl
  | opk =>
    obtain ⟨k, hk, _⟩ := encode_opk hf
    rw [hk]
    rfl

theorem length_flatMap_encode (program : List Instr) :
    (program.flatMap encode).length = (program.map Instr.size).sum := by
  rw [List.length_flatMap]
  exact congrArg List.sum (List.map_congr_left fun i _ => length_encode i)

/-- Settles O51: one pending instruction a line from pass 1, one encoding for each from pass 2. -/
theorem assembledImageIsItsInstructions : Obligations.AssembledImageIsItsInstructions := by
  intro lines image h
  unfold assemble at h
  split at h
  · cases h
  · rename_i labels pending hpass1
    obtain ⟨program, hlen, rfl⟩ := pass2_ok h
    exact ⟨program, hlen.trans (length_pending hpass1), rfl, length_flatMap_encode program⟩

end Sys2Proof.Machine
